-- ==== Sys2Proof/Word.lean ====
section
/-! DEFINITION. The block's data types: command and read words (00_scope.md R8), 64-bit registers (R6) and bit sequences (R9). -/

namespace Sys2Proof

/-- A command word, or a word of the register read port: 32 bits (00_scope.md R8). -/
abbrev Word := BitVec 32

/-- The content of GEN, REG or RES: 64 bits (00_scope.md R6). -/
abbrev Reg64 := BitVec 64

/-- A bit sequence, leftmost bit first; the leftmost bit is the most significant (00_scope.md R9). -/
abbrev Bits := List Bool

end Sys2Proof
end

