-- ==== Sys2Proof/Syntax.lean ====
section
/-! DEFINITION. The commands of the CRCDIV command set, version 1: one constructor per row of spec/opcode_table.json (30_encoding.md R72). -/

namespace Sys2Proof

/-- A decoded command. `k` is the bit count of a format B word and `v` its payload (R73, R74);
`c` is the symbol code of a format C word (R75). -/
inductive Instr where
  /-- NOP: no operation (R120). -/
  | nop
  /-- BEGE: open an encode operation (R121). -/
  | bege
  /-- BEGD: open a detect operation (R122). -/
  | begd
  /-- GBITS k, v: append k generator bits (R123). -/
  | gbits (k : Nat) (v : BitVec 16)
  /-- GCHR c: append one generator symbol (R124). -/
  | gchr (c : BitVec 8)
  /-- DBITS k, v: feed k data bits (R140). -/
  | dbits (k : Nat) (v : BitVec 16)
  /-- DCHR c: feed one data symbol (R141). -/
  | dchr (c : BitVec 8)
  /-- END: finish the operation (R142). -/
  | finish
  deriving DecidableEq, Repr

end Sys2Proof
end

