-- ==== Sys2Proof/WellFormed.lean ====
section
/-! DEFINITION. Which terms of Instr are commands: the operand ranges of 30_encoding.md R73, R74 and R80. -/

namespace Sys2Proof

/-- A format B operand pair: `1 <= k <= 16` (R73) and `v < 2^k` (R74). -/
def packedOk (k : Nat) (v : BitVec 16) : Bool :=
  decide (1 ≤ k) && decide (k ≤ 16) && decide (v.toNat < 2 ^ k)

/-- The operands have an encoding. Every symbol code is legal: a bad symbol is a data error, raised when
the command executes (R75). -/
def Instr.wf : Instr → Bool
  | .nop => true
  | .bege => true
  | .begd => true
  | .gbits k v => packedOk k v
  | .gchr _ => true
  | .dbits k v => packedOk k v
  | .dchr _ => true
  | .finish => true

/-- `i` is a well-formed command. -/
abbrev Instr.WellFormed (i : Instr) : Prop := i.wf = true

end Sys2Proof
end

