-- ==== Sys2Proof/Decode.lean ====
section
/-! DEFINITION. The command encoding: Decode, total on all 32-bit words (30_encoding.md R76, R77), and the encoder (R78). -/

namespace Sys2Proof

/-- Why a word is illegal: the clauses of R77. -/
inductive IllegalWord where
  /-- (a): OP in 0x8 to 0xF. -/
  | opcode
  /-- (b), (c), (d): a reserved field that is not 0. -/
  | reservedBits
  /-- (c): payload bits set at or above the count. -/
  | strayPayload
  deriving DecidableEq, Repr

/-- The result of Decode: a command, or Illegal (R76). -/
inductive Decoded where
  | legal (i : Instr)
  | illegal (why : IllegalWord)
  deriving DecidableEq, Repr

/-- Format Z (R71): the 28 bits below OP must be 0. -/
def decodeZ (w : Word) (i : Instr) : Decoded :=
  if w.extractLsb' 0 28 = 0 then .legal i else .illegal .reservedBits

/-- Format B (R71, R73, R74): RSV must be 0, `k = K + 1`, and `PAY[15:k]` must be 0 when `k < 16`. -/
def decodeB (w : Word) (mk : Nat → BitVec 16 → Instr) : Decoded :=
  if w.extractLsb' 20 8 ≠ 0 then .illegal .reservedBits
  else
    let k := (w.extractLsb' 16 4).toNat + 1
    let pay := w.extractLsb' 0 16
    if k < 16 ∧ pay >>> k ≠ 0 then .illegal .strayPayload else .legal (mk k pay)

/-- Format C (R71, R75): RSV must be 0; every symbol code is legal. -/
def decodeC (w : Word) (mk : BitVec 8 → Instr) : Decoded :=
  if w.extractLsb' 8 20 ≠ 0 then .illegal .reservedBits else .legal (mk (w.extractLsb' 0 8))

/-- The OP field, `w[31:28]` (R71). -/
def opField (w : Word) : BitVec 4 := w.extractLsb' 28 4

/-- Decode (R76, with the opcode map R72). It depends on the word alone. -/
def decode (w : Word) : Decoded :=
  match (opField w).toNat with
  | 0 => decodeZ w .nop
  | 1 => decodeZ w .bege
  | 2 => decodeZ w .begd
  | 3 => decodeB w .gbits
  | 4 => decodeC w .gchr
  | 5 => decodeB w .dbits
  | 6 => decodeC w .dchr
  | 7 => decodeZ w .finish
  | _ => .illegal .opcode

/-- A format B word: `op << 28 | (k-1) << 16 | v` (R78). -/
def encodeB (op : Word) (k : Nat) (v : BitVec 16) : Word :=
  op <<< 28 ||| BitVec.ofNat 32 (k - 1) <<< 16 ||| v.setWidth 32

/-- A format C word: `op << 28 | c` (R78). -/
def encodeC (op : Word) (c : BitVec 8) : Word := op <<< 28 ||| c.setWidth 32

/-- The one word of a well-formed command (R78). -/
def encode : Instr → Word
  | .nop => 0x00000000
  | .bege => 0x10000000
  | .begd => 0x20000000
  | .gbits k v => encodeB 3 k v
  | .gchr c => encodeC 4 c
  | .dbits k v => encodeB 5 k v
  | .dchr c => encodeC 6 c
  | .finish => 0x70000000

/-- The command of a decoding, if the word is legal. -/
def Decoded.command : Decoded → Option Instr
  | .legal i => some i
  | .illegal _ => none

/-- The host's question of an opcode-table row: what `decode` reads from the word whose low `nbits` bits
are those of `w` and whose other bits are 0. Every command is one 32-bit word (R70), so a longer one is none. -/
def decodeTableWord (nbits w : Nat) : Option Instr :=
  if nbits ≤ 32 then (decode (BitVec.ofNat 32 (w % 2 ^ nbits))).command else none

end Sys2Proof
end

