-- ==== Sys2Proof/Config.lean ====
section
/-! DEFINITION. What an implementation fixes (00_scope.md R6, 70_reset_and_hazards.md R240), and the one free value of the spec (R241). -/

namespace Sys2Proof

/-- The parameters of a configuration. NMAX is the largest generator length, in bits, the block accepts (R6). -/
structure Config where
  nmax : Nat
  deriving DecidableEq, Repr

/-- Legal values of NMAX: `2 <= NMAX <= 64` (R6). Any other configuration is refused (60_exceptions.md R207 (a)). -/
def Config.valid (c : Config) : Bool := decide (2 ≤ c.nmax) && decide (c.nmax ≤ 64)

/-- The reference configuration: NMAX = 64 (R6). -/
def Config.reference : Config := { nmax := 64 }

/-- FREE VALUE. The word the read port returns for the n-th read of a word other than STATUS made while
BUSY = 1: unspecified, any value (70_reset_and_hazards.md R241). Log entry 5. -/
opaque Config.busyRead : Nat → Word

/-- OPEN parameter T_CMD, the fixed overhead of a command (R240). Log entry 13. -/
opaque Config.tCmd : Nat

/-- OPEN parameter T_BIT, the time of one Step (R240). Log entry 13. -/
opaque Config.tBit : Nat

end Sys2Proof
end

