-- ==== Sys2Proof/Machine/State.lean ====
section
/-! DEFINITION. The architectural state of CRCDIV (10_state.md R20 to R32), the host's side of the interface as data (R21, R246), the state after reset (70_reset_and_hazards.md R231), and the reasons a step can stop. -/

namespace Sys2Proof.Machine

/-- PHASE (R22). The 3-bit codes are `phaseCode`; values 5 to 7 are never produced. Log entry 9. -/
inductive Phase where
  | idle
  | gen
  | data
  | done
  | error
  deriving DecidableEq, Repr

/-- MODE (R23): ENC = 0, DET = 1 (`modeCode`). -/
inductive Mode where
  | enc
  | det
  deriving DecidableEq, Repr

/-- ECODE (R31, 60_exceptions.md R200). The 4-bit codes are `errorCodeBits`; 7 to 15 are never produced. -/
inductive ErrorCode where
  /-- 0: no error; never raised. -/
  | none
  /-- 1: a symbol other than 0x30 and 0x31. Raised by GCHR and DCHR. -/
  | invalidAlphabet
  /-- 2: generator length below 2, or leading bit 0. Raised by DBITS, DCHR and END in PHASE GEN. -/
  | invalidGenerator
  /-- 3: reserved for the external InjectError (00_scope.md R5); the block never raises it. -/
  | positionOutOfRange
  /-- 4: codeword shorter than the generator. Raised by END in DET. -/
  | inputTooShort
  /-- 5: an illegal word, or a command not legal in the phase. -/
  | illegalCommand
  /-- 6: a generator bit would take GLEN past NMAX. Raised by GBITS and GCHR. -/
  | capacityExceeded
  deriving DecidableEq, Repr

/-- What the host can do (70_reset_and_hazards.md R245). -/
inductive HostAction where
  /-- Offer the word `w` on the command port; it stays offered until accepted (20_memory.md R51). -/
  | write (w : Word)
  /-- Read the read map at a 4-bit word address (20_memory.md R52). -/
  | read (a : BitVec 4)
  /-- Assert and release reset (R231). -/
  | reset
  /-- Drive the pin cw_ready of the codeword output port (20_memory.md R55). -/
  | setCwReady (level : Bool)
  /-- Wait until BUSY = 0 (20_memory.md R62, duty H1). Log entry 11. -/
  | await
  deriving DecidableEq, Repr

/-- One read the host made: the address it drove and the word it received (20_memory.md R52). -/
structure ReadEvent where
  addr : BitVec 4
  data : Word
  deriving DecidableEq, Repr

/-- The state: the registers of R20, the command in progress (R32, R36), and then the configuration (R6)
and the host's side, which are not block state. -/
structure State where
  /-- PHASE (R22). -/
  phase : Phase
  /-- MODE (R23). -/
  mode : Mode
  /-- GEN (R24): the generator, right-aligned. -/
  gen : Reg64
  /-- GLEN (R25): the number of generator bits loaded. -/
  glen : BitVec 7
  /-- LEN (R26): the data bits fed, saturating. -/
  len : BitVec 32
  /-- REG (R27): the PolynomialRegister. -/
  reg : Reg64
  /-- RES (R28): the checksum or the syndrome. -/
  res : Reg64
  /-- HASERR (R29). -/
  hasErr : Bool
  /-- COUT (R30): the bits emitted in this operation, leftmost first. -/
  cout : Bits
  /-- ECODE (R31). -/
  ecode : ErrorCode
  /-- The command accepted and not yet complete (R36). BUSY (R32) is 1 exactly while there is one. Log entry 4. -/
  inProgress : Option Word
  /-- The configuration (R6), which no step changes. Log entry 3. -/
  config : Config
  /-- The host's remaining actions, first to come first (R21, R246). Log entry 1. -/
  host : List HostAction
  /-- The level of the host's pin cw_ready (20_memory.md R55). Log entry 7. -/
  cwReady : Bool
  /-- The reads made so far, first made first (20_memory.md R52). Log entry 6. -/
  rdTrace : List ReadEvent
  /-- How many free values have been drawn (R241). Log entry 5. -/
  draws : Nat
  deriving DecidableEq, Repr

/-- The reasons a step stops with a fault: there are none. Every command in every phase gives a next state
(70_reset_and_hazards.md R230), and an error is one too (60_exceptions.md R207). Log entry 21. -/
inductive Fault where
  deriving DecidableEq, Repr

/-- The reasons a step is refused. -/
inductive Refusal where
  /-- `exec` raises it for an instruction that has no meaning yet. Safe: the model stops where the hardware goes on. -/
  | notModelled (mnemonic : String)
  /-- `step` raises it when NMAX is outside 2 to 64: such a configuration is refused (60_exceptions.md R207 (a)).
  Safe: it is the spec's own outcome. -/
  | badConfig
  deriving DecidableEq, Repr

/-- The state after reset (R231) of a block with configuration `c`, before a host that does nothing. -/
def State.resetOf (c : Config) : State :=
  { phase := .idle, mode := .enc, gen := 0, glen := 0, len := 0, reg := 0, res := 0, hasErr := false,
    cout := [], ecode := .none, inProgress := none,
    config := c, host := [], cwReady := true, rdTrace := [], draws := 0 }

/-- The reference machine right after reset (R231, R6). -/
def State.reset : State := State.resetOf Config.reference

end Sys2Proof.Machine
end

