-- ==== Sys2Proof/Machine/Operands.lean ====
section
/-! DEFINITION. Operand forms and the arithmetic shared by the commands: bits_k and val (00_scope.md R10), sym (30_encoding.md R75), sat32 (R12), register fields (R10). -/

namespace Sys2Proof.Machine

/-- `bits_k(v)` (R10): the k low bits of v, bit k-1 first. -/
def bitsOf : Nat → Nat → Bits
  | 0, _ => []
  | k + 1, v => v.testBit k :: bitsOf k v

/-- `val(s)` (R10): the leftmost bit is the most significant. -/
def bitsVal (s : Bits) : Nat := s.foldl (fun acc b => 2 * acc + b.toNat) 0

/-- `0^k` (R9). -/
def zeros (k : Nat) : Bits := List.replicate k false

/-- The bits a format B payload feeds (R74): `bits_k(PAY[k-1:0])`. -/
def payloadBits (k : Nat) (v : BitVec 16) : Bits := bitsOf k v.toNat

/-- `sym(CH)` (R75): 0x30 is bit 0, 0x31 is bit 1, any other code has none. Log entry 12. -/
def symbolBit (c : BitVec 8) : Option Bool :=
  if c = 0x30 then some false else if c = 0x31 then some true else none

/-- `sat32(x) = min(x, 2^32 - 1)` (R12). -/
def sat32 (x : Nat) : Nat := min x (2 ^ 32 - 1)

/-- `zext_64(r[n-1:0])` (R10): the low n bits of r, the rest 0; also `r mod 2^n`. -/
def lowBits (n : Nat) (r : Reg64) : Reg64 := (r.setWidth n).setWidth 64

/-- `(r << 1) | b` in a 64-bit register (R11). -/
def shiftIn (r : Reg64) (b : Bool) : Reg64 := r <<< 1 ||| (BitVec.ofBool b).setWidth 64

end Sys2Proof.Machine
end

