-- ==== Sys2Proof/Machine/Divider.lean ====
section
/-! DEFINITION. The PolynomialRegister datapath (40_polynomial_register.md R100 to R103): Step, Reduce and the division function Rem. -/

namespace Sys2Proof.Machine

/-- Reduce (R101): if bit N-1 of r is 1, XOR r with the generator. -/
def reduce (r g : Reg64) (n : Nat) : Reg64 := if r.getLsbD (n - 1) then r ^^^ g else r

/-- Step (R100): resolve the leading bit, shift left, bring in b, keep N bits. -/
def divStep (r g : Reg64) (n : Nat) (b : Bool) : Reg64 := lowBits n (shiftIn (reduce r g n) b)

/-- One Step per bit, leftmost bit first (R102, R107). -/
def divSteps (r g : Reg64) (n : Nat) (bs : Bits) : Reg64 := bs.foldl (fun r b => divStep r g n b) r

/-- The register after a whole sequence, from zero, reduced (R102): below `2^(N-1)` for a valid generator. -/
def remReg (s : Bits) (g : Reg64) (n : Nat) : Reg64 := reduce (divSteps 0 g n s) g n

/-- `Rem(S, G)` (R102), for a valid generator G of length at most 64. -/
def rem (s g : Bits) : Bits :=
  let n := g.length
  bitsOf (n - 1) (lowBits (n - 1) (remReg s (BitVec.ofNat 64 (bitsVal g)) n)).toNat

/-- The document's own procedure for `len(S) >= N` (R103): start from the first N bits, one Step for each
remaining bit, Reduce, and discard the leading bit. -/
def remFromFirstBits (s g : Bits) : Bits :=
  let n := g.length
  let gv : Reg64 := BitVec.ofNat 64 (bitsVal g)
  let r0 : Reg64 := BitVec.ofNat 64 (bitsVal (s.take n))
  bitsOf (n - 1) (lowBits (n - 1) (reduce (divSteps r0 gv n (s.drop n)) gv n)).toNat

end Sys2Proof.Machine
end

