-- ==== Sys2Proof/Machine/Flags.lean ====
section
/-! DEFINITION. The flags and the STATUS word (10_state.md R22, R23, R31 to R34). -/

namespace Sys2Proof.Machine

/-- The 3-bit code of PHASE (R22). -/
def phaseCode : Phase → BitVec 3
  | .idle => 0
  | .gen => 1
  | .data => 2
  | .done => 3
  | .error => 4

/-- The bit of MODE (R23). -/
def modeCode : Mode → BitVec 1
  | .enc => 0
  | .det => 1

/-- The 4-bit code of ECODE (60_exceptions.md R200). -/
def errorCodeBits : ErrorCode → BitVec 4
  | .none => 0
  | .invalidAlphabet => 1
  | .invalidGenerator => 2
  | .positionOutOfRange => 3
  | .inputTooShort => 4
  | .illegalCommand => 5
  | .capacityExceeded => 6

/-- VALID (R33, R34): 1 exactly in PHASE DONE. -/
def State.valid (s : State) : Bool := decide (s.phase = .done)

/-- ERR (R33, R34): 1 exactly in PHASE ERROR. -/
def State.err (s : State) : Bool := decide (s.phase = .error)

/-- BUSY (R32): 1 from the acceptance of a command until it is complete. -/
def State.busy (s : State) : Bool := s.inProgress.isSome

/-- A flag as a word. -/
def flagWord (b : Bool) : Word := (BitVec.ofBool b).setWidth 32

/-- STATUS (R33). -/
def statusWord (s : State) : Word :=
  (phaseCode s.phase).setWidth 32
    ||| (modeCode s.mode).setWidth 32 <<< 3
    ||| flagWord s.valid <<< 4
    ||| flagWord s.hasErr <<< 5
    ||| flagWord s.err <<< 6
    ||| flagWord s.busy <<< 7
    ||| (errorCodeBits s.ecode).setWidth 32 <<< 8

end Sys2Proof.Machine
end

