-- ==== Sys2Proof/Machine/Ops.lean ====
section
/-! DEFINITION. The operations the commands share: error entry (60_exceptions.md R204) and recovery (R206), the phase legality table (41_control_and_generator.md R126), the frame of a command (R127), opening an operation (R121), loading the generator (R123), ValidateGen (R125) and feeding data bits (42_crc_encoder.md R140). -/

namespace Sys2Proof.Machine

/-- The outcome of a model step. -/
abbrev Result := Host.Outcome State Fault Refusal

/-- What the body of a command gives: the state with all its writes, or the error it raises (00_scope.md R12). -/
abbrev Effect := Except ErrorCode State

/-- Error entry (R204): only PHASE and ECODE change. -/
def errorEntry (e : ErrorCode) (s : State) : State := { s with phase := .error, ecode := e }

/-- The rows of the legality table (R126). -/
inductive CommandClass where
  | nop
  | opening
  | generator
  | data
  | finish
  | illegal
  deriving DecidableEq, Repr

/-- The entries of the legality table (R126). -/
inductive Legality where
  | yes
  | no
  | ignored
  deriving DecidableEq, Repr

/-- The phase legality table (R126), row by row. -/
def legality : CommandClass → Phase → Legality
  | .nop, _ => .yes
  | .opening, _ => .yes
  | .generator, .idle => .no
  | .generator, .gen => .yes
  | .generator, .data => .no
  | .generator, .done => .no
  | .generator, .error => .ignored
  | .data, .idle => .no
  | .data, .gen => .yes
  | .data, .data => .yes
  | .data, .done => .no
  | .data, .error => .ignored
  | .finish, .idle => .no
  | .finish, .gen => .yes
  | .finish, .data => .yes
  | .finish, .done => .no
  | .finish, .error => .ignored
  | .illegal, .idle => .no
  | .illegal, .gen => .no
  | .illegal, .data => .no
  | .illegal, .done => .no
  | .illegal, .error => .ignored

/-- The end of a command (R127, R230): its writes take effect together, or the error it raised is entered
from the state before it. -/
def settle (s : State) : Effect → State
  | .ok s' => s'
  | .error e => errorEntry e s

/-- The frame of every command (R127): ignored, refused as IllegalCommand, or performed. -/
def perform (c : CommandClass) (body : State → Effect) (s : State) : Result :=
  match legality c s.phase with
  | .ignored => .next s
  | .no => .next (errorEntry .illegalCommand s)
  | .yes => .next (settle s (body s))

/-- Opening an operation (R121, R122), which is also the recovery from an error (R206). -/
def openOperation (m : Mode) (s : State) : State :=
  { s with phase := .gen, mode := m, gen := 0, glen := 0, len := 0, reg := 0, res := 0,
           hasErr := false, ecode := .none, cout := [] }

/-- The generator register and its length after some bits more (R123, R124). -/
def appendGenerator (bs : Bits) (s : State) : State :=
  { s with gen := bs.foldl shiftIn s.gen, glen := s.glen + BitVec.ofNat 7 bs.length }

/-- Appending generator bits, whole or not at all (R123): CapacityExceeded if `GLEN + k > NMAX`. -/
def loadGenerator (bs : Bits) (s : State) : Effect :=
  if s.glen.toNat + bs.length > s.config.nmax then .error .capacityExceeded
  else .ok (appendGenerator bs s)

/-- The generator test of ValidateGen (R125): `GLEN >= 2` and `GEN[GLEN-1] = 1`. -/
def generatorOk (s : State) : Bool :=
  decide (2 ≤ s.glen.toNat) && s.gen.getLsbD (s.glen.toNat - 1)

/-- PHASE <- DATA. -/
def enterData (s : State) : State := { s with phase := .data }

/-- The start of DBITS, DCHR and END (R125, R140 to R142): ValidateGen in PHASE GEN; PHASE <- DATA. -/
def startData (s : State) : Effect :=
  if s.phase = .gen && !generatorOk s then .error .invalidGenerator else .ok (enterData s)

/-- `emit(b)` for the bits of a list in order (00_scope.md R12). -/
def emit (bs : Bits) (s : State) : State := { s with cout := s.cout ++ bs }

/-- One data bit (R140): Step, count, and in ENC echo. -/
def feedBit (s : State) (b : Bool) : State :=
  { s with reg := divStep s.reg s.gen s.glen.toNat b,
           len := BitVec.ofNat 32 (sat32 (s.len.toNat + 1)),
           cout := match s.mode with
             | .enc => s.cout ++ [b]
             | .det => s.cout }

/-- Data bits, leftmost first (R140). -/
def feedBits (bs : Bits) (s : State) : State := bs.foldl feedBit s

/-- Feeding data bits by DBITS or DCHR (R140, R141), the symbol test apart. -/
def feedData (bs : Bits) (s : State) : Effect :=
  match startData s with
  | .error e => .error e
  | .ok s' => .ok (feedBits bs s')

/-- The last writes of END, common to both modes (R143, R160): REG and RES take the reduced register, PHASE <- DONE. -/
def storeResult (r : Reg64) (s : State) : State :=
  { s with reg := r, res := lowBits (s.glen.toNat - 1) r, phase := .done }

/-- Executing an illegal word (30_encoding.md R77, 60_exceptions.md R203): IllegalCommand, or ignored in ERROR (R205). -/
def execIllegal (s : State) : Result := perform .illegal (fun _ => .error .illegalCommand) s

end Sys2Proof.Machine
end

