-- ==== Sys2Proof/Machine/Control.lean ====
section
/-! DEFINITION. Operation control and generator loading: NOP, BEGE, BEGD, GBITS and GCHR (41_control_and_generator.md R120 to R124). -/

namespace Sys2Proof.Machine

/-- NOP (R120): no state change, legal in every phase. -/
def execNop (s : State) : Result := perform .nop (fun s => .ok s) s

/-- BEGE (R121). -/
def execBege (s : State) : Result := perform .opening (fun s => .ok (openOperation .enc s)) s

/-- BEGD (R122). -/
def execBegd (s : State) : Result := perform .opening (fun s => .ok (openOperation .det s)) s

/-- GBITS k, v (R123). -/
def execGbits (k : Nat) (v : BitVec 16) (s : State) : Result :=
  perform .generator (loadGenerator (payloadBits k v)) s

/-- The body of GCHR (R124): the symbol is tested before the capacity (60_exceptions.md R202). -/
def gchrEffect (c : BitVec 8) (s : State) : Effect :=
  match symbolBit c with
  | none => .error .invalidAlphabet
  | some b => loadGenerator [b] s

/-- GCHR c (R124). -/
def execGchr (c : BitVec 8) (s : State) : Result := perform .generator (gchrEffect c) s

end Sys2Proof.Machine
end

