-- ==== Sys2Proof/Machine/Detector.lean ====
section
/-! DEFINITION. The syndrome detector: DetFinish, the detect branch of END (43_syndrome_detector.md R160, R162). -/

namespace Sys2Proof.Machine

/-- HASERR <- (RES != 0) (R160): over all N-1 bits of the syndrome (R162). -/
def writeHasErr (s : State) : State := { s with hasErr := s.res != 0 }

/-- DetFinish (R160): InputTooShort if `LEN < N`; else Reduce, RES, HASERR, PHASE <- DONE. -/
def detFinish (s : State) : Effect :=
  if s.len.toNat < s.glen.toNat then .error .inputTooShort
  else .ok (writeHasErr (storeResult (reduce s.reg s.gen s.glen.toNat) s))

end Sys2Proof.Machine
end

