-- ==== Sys2Proof/Machine/Encoder.lean ====
section
/-! DEFINITION. The CrcEncoder: DBITS, DCHR and END with its encode branch EncFinish (42_crc_encoder.md R140 to R143). -/

namespace Sys2Proof.Machine

/-- DBITS k, v (R140). -/
def execDbits (k : Nat) (v : BitVec 16) (s : State) : Result :=
  perform .data (feedData (payloadBits k v)) s

/-- The body of DCHR (R141): the symbol is tested before the generator (60_exceptions.md R202). -/
def dchrEffect (c : BitVec 8) (s : State) : Effect :=
  match symbolBit c with
  | none => .error .invalidAlphabet
  | some b => feedData [b] s

/-- DCHR c (R141). -/
def execDchr (c : BitVec 8) (s : State) : Result := perform .data (dchrEffect c) s

/-- The register after the N-1 extension zeros and Reduce (R143). -/
def checksumReg (s : State) : Reg64 :=
  reduce (divSteps s.reg s.gen s.glen.toNat (zeros (s.glen.toNat - 1))) s.gen s.glen.toNat

/-- EncFinish (R143): store the checksum and emit its N-1 bits; LEN is unchanged and no extension zero is emitted. -/
def encFinish (s : State) : State :=
  let t := storeResult (checksumReg s) s
  emit (bitsOf (s.glen.toNat - 1) t.res.toNat) t

/-- The body of END (R142). -/
def finishEffect (s : State) : Effect :=
  match startData s with
  | .error e => .error e
  | .ok t =>
    match t.mode with
    | .enc => .ok (encFinish t)
    | .det => detFinish t

/-- END (R142). -/
def execFinish (s : State) : Result := perform .finish finishEffect s

end Sys2Proof.Machine
end

