-- ==== Sys2Proof/Machine/Dispatch.lean ====
section
/-! DEFINITION. The command dispatch of 41_control_and_generator.md R127: one arm per constructor of Instr. -/

namespace Sys2Proof.Machine

def exec (i : Instr) (s : State) : Host.Outcome State Fault Refusal :=
  match i with
  | .nop => Sys2Proof.Machine.execNop s
  | .bege => Sys2Proof.Machine.execBege s
  | .begd => Sys2Proof.Machine.execBegd s
  | .gbits k v => Sys2Proof.Machine.execGbits k v s
  | .gchr c => Sys2Proof.Machine.execGchr c s
  | .dbits k v => Sys2Proof.Machine.execDbits k v s
  | .dchr c => Sys2Proof.Machine.execDchr c s
  | .finish => Sys2Proof.Machine.execFinish s

end Sys2Proof.Machine
end

