-- ==== Sys2Proof/Machine/Ports.lean ====
section
/-! DEFINITION. The three ports (20_memory.md R50 to R55): accepting a command word, the register read port with its map, the pin cw_ready, and reset (70_reset_and_hazards.md R231). -/

namespace Sys2Proof.Machine

/-- The read map (20_memory.md R53, R54), at a command boundary. -/
def readMap (s : State) (a : BitVec 4) : Word :=
  match a.toNat with
  | 0 => statusWord s
  | 1 => s.glen.setWidth 32
  | 2 => s.len
  | 3 => s.res.extractLsb' 0 32
  | 4 => s.res.extractLsb' 32 32
  | 5 => s.gen.extractLsb' 0 32
  | 6 => s.gen.extractLsb' 32 32
  | 7 => s.reg.extractLsb' 0 32
  | 8 => s.reg.extractLsb' 32 32
  | 9 => BitVec.ofNat 32 s.config.nmax
  | _ => 0

/-- A read made while BUSY = 1 of a word other than STATUS: its value is unspecified (R241). -/
def readIsOpen (s : State) (a : BitVec 4) : Bool := s.busy && a != 0

/-- What the read port answers (20_memory.md R52; R241 while BUSY = 1). Log entry 5. -/
def portWord (s : State) (a : BitVec 4) : Word :=
  if readIsOpen s a then Config.busyRead s.draws else readMap s a

/-- Serving a read (20_memory.md R52): the word goes to the host, and no register changes. -/
def serveRead (a : BitVec 4) (s : State) : State :=
  { s with rdTrace := s.rdTrace ++ [{ addr := a, data := portWord s a }],
           draws := if readIsOpen s a then s.draws + 1 else s.draws }

/-- `cmd_ready = NOT BUSY` (20_memory.md R51). -/
def cmdReady (s : State) : Bool := !s.busy

/-- Acceptance of the word `w` (20_memory.md R51): BUSY goes to 1. -/
def acceptWord (w : Word) (s : State) : State := { s with inProgress := some w }

/-- The end of a command (20_memory.md R51): BUSY returns to 0. -/
def retire (s : State) : State := { s with inProgress := none }

/-- Reset (R231): every register at its reset value, the command in progress abandoned.
The configuration and the host's side are not block state and stay. Log entry 8. -/
def applyReset (s : State) : State :=
  { State.resetOf s.config with
      host := s.host, cwReady := s.cwReady, rdTrace := s.rdTrace, draws := s.draws }

/-- The host's script after its first action. -/
def dropAction (s : State) : State := { s with host := s.host.tail }

/-- The host drives cw_ready (20_memory.md R55). -/
def driveCwReady (level : Bool) (s : State) : State := { s with cwReady := level }

/-- The command that takes `s` to `s'` has bits to emit and the host holds cw_ready = 0: it does not
complete (20_memory.md R55). Log entry 7. -/
def stalled (s s' : State) : Bool := !s.cwReady && decide (s.cout.length < s'.cout.length)

end Sys2Proof.Machine
end

