-- ==== Sys2Proof/Machine/Cycle.lean ====
section
/-! DEFINITION. The command cycle (41_control_and_generator.md R127) and one transition of the block and its host (20_memory.md R51, 70_reset_and_hazards.md R230, R245). -/

namespace Sys2Proof.Machine

/-- `Exec(w)` (R127): decode the word and execute the command, or the illegal word. -/
def execWord (w : Word) (s : State) : Result :=
  match decode w with
  | .legal i => exec i s
  | .illegal _ => execIllegal s

/-- The command in progress completes (R230): all its writes, COUT emissions included, and BUSY <- 0, in one
transition; unless the host withholds cw_ready from an emitting command (20_memory.md R55). -/
def completeCommand (w : Word) (s : State) : Result :=
  match execWord w (retire s) with
  | .next s' => .next (if stalled s s' then s else s')
  | .fault r => .fault r
  | .refused r => .refused r

/-- The host action served whether or not a command is in progress: a read, reset, or the pin cw_ready (R245).
A word offered and a wait for BUSY = 0 depend on BUSY. That it is served before a completion: log entry 23. -/
def anyTimeAction (s : State) : Option State :=
  match s.host with
  | .read a :: _ => some (serveRead a (dropAction s))
  | .reset :: _ => some (applyReset (dropAction s))
  | .setCwReady level :: _ => some (driveCwReady level (dropAction s))
  | .write _ :: _ => none
  | .await :: _ => none
  | [] => none

/-- BUSY = 0 and no action that is served at any time: a word offered is accepted (20_memory.md R51), a wait ends,
and with no action left the block holds its state (60_exceptions.md R213). -/
def boundaryStep (s : State) : State :=
  match s.host with
  | .write w :: _ => acceptWord w (dropAction s)
  | .await :: _ => dropAction s
  | .read _ :: _ => s
  | .reset :: _ => s
  | .setCwReady _ :: _ => s
  | [] => s

/-- One transition of a machine whose configuration is valid.
DESIGN CHOICE (log entry 23): while a command is in progress the spec leaves open whether its completion or the host's
next action comes first, since T_CMD and T_BIT are open (R240). The model serves a read, a reset or a change of cw_ready
first, and completes the command when the host's next action is a word offered, a wait, or none. -/
def cycle (s : State) : Result :=
  match anyTimeAction s with
  | some s' => .next s'
  | none =>
    match s.inProgress with
    | some w => completeCommand w s
    | none => .next (boundaryStep s)

/-- One transition; a configuration with NMAX outside 2 to 64 is refused (60_exceptions.md R207 (a)). -/
def guardedCycle (s : State) : Result :=
  if s.config.valid then cycle s else .refused .badConfig

/-- The state in which the word `w` has been accepted and is what the next transition executes: the host waits
for BUSY = 0 and takes the output. Log entry 2. -/
def placeWord (w : Word) (s : State) : State :=
  { s with inProgress := some w, cwReady := true, host := .await :: s.host }

end Sys2Proof.Machine
end

