-- ==== Sys2Proof/Machine/Step.lean ====
section
/-! DEFINITION. The step of the machine, and how the host of the pipeline places a command for it. -/

namespace Sys2Proof.Machine

/-- One step: see `cycle`. -/
def step (s : State) : Host.Outcome State Fault Refusal := guardedCycle s

/-- `s` with the command word whose low `nbits` bits are those of `w` (the rest 0) in progress, so that the
next step executes it. Log entry 2. -/
def State.withFetchWord (s : State) (nbits w : Nat) : State :=
  placeWord (BitVec.ofNat 32 (w % 2 ^ nbits)) s

end Sys2Proof.Machine
end

