-- ==== Sys2Proof/Machine/Assembler.lean ====
section
/-! DEFINITION. Assembly syntax (30_encoding.md R80) and the pseudo-instructions and their expansions (R81). Host-side notation: no step reads it. Log entry 18. -/

namespace Sys2Proof.Machine

/-- Why a line is refused. -/
inductive AsmError where
  /-- A character or quotation the syntax does not have. -/
  | badToken
  /-- Not one of the forms of R80 and R81. -/
  | badForm
  /-- A count outside 1 to 16, `v >= 2^k`, or a code or byte above 255: no encoding (R80, R81). -/
  | noEncoding
  deriving DecidableEq, Repr

/-- The tokens of a line. -/
inductive Token where
  | word (cs : List Char)
  | comma
  | symbol (c : Char)
  | text (cs : List Char)
  deriving DecidableEq, Repr

/-- Where the lexer stands; words and texts under way are kept last character first. -/
inductive LexMode where
  | plain (acc : List Char)
  | openSymbol
  | closeSymbol (c : Char)
  | inText (acc : List Char)
  deriving DecidableEq, Repr

/-- The word under way, if any, in front of the tokens after it. -/
def flushWord (acc : List Char) (ts : List Token) : List Token :=
  match acc with
  | [] => ts
  | _ :: _ => .word acc.reverse :: ts

/-- The tokens of a line: `;` starts a comment, blanks separate, a quoted symbol or text is taken as it stands (R80). -/
def lex : LexMode → List Char → Except AsmError (List Token)
  | .plain acc, [] => .ok (flushWord acc [])
  | .plain acc, c :: cs =>
    if c = ';' then .ok (flushWord acc [])
    else if c = ' ' ∨ c = '\t' then (lex (.plain []) cs).map (flushWord acc)
    else if c = ',' then (lex (.plain []) cs).map fun ts => flushWord acc (.comma :: ts)
    else if c = '\'' then (lex .openSymbol cs).map (flushWord acc)
    else if c = '"' then (lex (.inText []) cs).map (flushWord acc)
    else lex (.plain (c :: acc)) cs
  | .openSymbol, [] => .error .badToken
  | .openSymbol, c :: cs => lex (.closeSymbol c) cs
  | .closeSymbol _, [] => .error .badToken
  | .closeSymbol x, c :: cs =>
    if c = '\'' then (lex (.plain []) cs).map (.symbol x :: ·) else .error .badToken
  | .inText _, [] => .error .badToken
  | .inText acc, c :: cs =>
    if c = '"' then (lex (.plain []) cs).map (.text acc.reverse :: ·) else lex (.inText (c :: acc)) cs

/-- The value of a digit, either case. -/
def digitValue (c : Char) : Nat :=
  if '0' ≤ c ∧ c ≤ '9' then c.toNat - '0'.toNat
  else if 'a' ≤ c ∧ c ≤ 'f' then c.toNat - 'a'.toNat + 10
  else if 'A' ≤ c ∧ c ≤ 'F' then c.toNat - 'A'.toNat + 10
  else 16

/-- A nonempty string of digits in a base. -/
def digitsIn (base : Nat) : List Char → Option Nat
  | [] => none
  | cs => if cs.all (fun c => digitValue c < base) then some (cs.foldl (fun n c => base * n + digitValue c) 0) else none

/-- A number: decimal, 0x hex or 0b binary (R80). -/
def number : List Char → Option Nat
  | '0' :: 'x' :: cs => digitsIn 16 cs
  | '0' :: 'b' :: cs => digitsIn 2 cs
  | cs => digitsIn 10 cs

/-- A character of a bit string (R81). -/
def bitChar (c : Char) : Option Bool := if c = '0' then some false else if c = '1' then some true else none

/-- A string of `0` and `1` (R81). -/
def bitString : List Char → Option Bits
  | [] => some []
  | c :: cs => match bitChar c, bitString cs with
    | some b, some bs => some (b :: bs)
    | _, _ => none

/-- The command for `k, v`, if it has an encoding (R80). -/
def packedCommand (mk : Nat → BitVec 16 → Instr) (k v : Nat) : Except AsmError (List Instr) :=
  if 1 ≤ k ∧ k ≤ 16 ∧ v < 2 ^ k then .ok [mk k (BitVec.ofNat 16 v)] else .error .noEncoding

/-- The command for one symbol code, if it has an encoding (R80). -/
def symbolCommand (mk : BitVec 8 → Instr) (n : Nat) : Except AsmError (List Instr) :=
  if n < 256 then .ok [mk (BitVec.ofNat 8 n)] else .error .noEncoding

/-- The chunks of a bit string: 16 bits each from the left, the last one the rest (R81).
The first argument bounds their number; the length of the string is enough. -/
def chunks16 : Nat → Bits → List Bits
  | 0, _ => []
  | _, [] => []
  | n + 1, b :: bs => (b :: bs).take 16 :: chunks16 n ((b :: bs).drop 16)

/-- `gen` and `data`: one format B command per chunk (R81). -/
def packedStream (mk : Nat → BitVec 16 → Instr) (s : Bits) : List Instr :=
  (chunks16 s.length s).map fun c => mk c.length (BitVec.ofNat 16 (bitsVal c))

/-- `gen "<s>"` (R81). -/
def asmGen (s : Bits) : List Instr := packedStream .gbits s

/-- `data "<s>"` (R81). -/
def asmData (s : Bits) : List Instr := packedStream .dbits s

/-- `gtext` and `dtext`: one format C command per character, left to right (R81).
DESIGN CHOICE (log entry 18): the spec says of the codes only that they are ASCII (R75), which gives a character from
0x80 to 0xFF none; the model takes its Unicode code point. -/
def symbolStream (mk : BitVec 8 → Instr) : List Char → Except AsmError (List Instr)
  | [] => .ok []
  | c :: cs => match symbolCommand mk c.toNat, symbolStream mk cs with
    | .ok i, .ok is => .ok (i ++ is)
    | .error e, _ => .error e
    | _, .error e => .error e

/-- `encode "<G>", "<M>"` (R81). -/
def asmEncode (g m : Bits) : List Instr := .bege :: asmGen g ++ asmData m ++ [.finish]

/-- `detect "<G>", "<C>"` (R81). -/
def asmDetect (g c : Bits) : List Instr := .begd :: asmGen g ++ asmData c ++ [.finish]

/-- Two bit strings for `encode` or `detect`. -/
def twoStrings (f : Bits → Bits → List Instr) (s t : List Char) : Except AsmError (List Instr) :=
  match bitString s, bitString t with
  | some a, some b => .ok (f a b)
  | _, _ => .error .badForm

/-- One bit string for `gen` or `data`. -/
def oneString (f : Bits → List Instr) (s : List Char) : Except AsmError (List Instr) :=
  match bitString s with
  | some a => .ok (f a)
  | none => .error .badForm

/-- A mnemonic with its operands (R80, R81). The code of a quoted symbol is its character's Unicode code point, as in
`symbolStream` (log entry 18). -/
def assembleForm (m : List Char) (operands : List Token) : Except AsmError (List Instr) :=
  let packed (mk : Nat → BitVec 16 → Instr) : Except AsmError (List Instr) :=
    match operands with
    | [.word k, .comma, .word v] => match number k, number v with
      | some k, some v => packedCommand mk k v
      | _, _ => .error .badForm
    | _ => .error .badForm
  let symbol (mk : BitVec 8 → Instr) : Except AsmError (List Instr) :=
    match operands with
    | [.symbol c] => symbolCommand mk c.toNat
    | [.word n] => match number n with
      | some n => symbolCommand mk n
      | none => .error .badForm
    | _ => .error .badForm
  let bare (i : Instr) : Except AsmError (List Instr) :=
    match operands with
    | [] => .ok [i]
    | _ => .error .badForm
  let text (f : List Char → Except AsmError (List Instr)) : Except AsmError (List Instr) :=
    match operands with
    | [.text s] => f s
    | _ => .error .badForm
  let texts (f : List Char → List Char → Except AsmError (List Instr)) : Except AsmError (List Instr) :=
    match operands with
    | [.text s, .comma, .text t] => f s t
    | _ => .error .badForm
  match m with
  | ['n', 'o', 'p'] => bare .nop
  | ['b', 'e', 'g', 'e'] => bare .bege
  | ['b', 'e', 'g', 'd'] => bare .begd
  | ['g', 'b', 'i', 't', 's'] => packed .gbits
  | ['g', 'c', 'h', 'r'] => symbol .gchr
  | ['d', 'b', 'i', 't', 's'] => packed .dbits
  | ['d', 'c', 'h', 'r'] => symbol .dchr
  | ['e', 'n', 'd'] => bare .finish
  | ['g', 'e', 'n'] => text (oneString asmGen)
  | ['d', 'a', 't', 'a'] => text (oneString asmData)
  | ['g', 't', 'e', 'x', 't'] => text (symbolStream .gchr)
  | ['d', 't', 'e', 'x', 't'] => text (symbolStream .dchr)
  | ['d', 'b', 'y', 't', 'e'] =>
    match operands with
    | [.word v] => match number v with
      | some v => packedCommand .dbits 8 v
      | none => .error .badForm
    | _ => .error .badForm
  | ['e', 'n', 'c', 'o', 'd', 'e'] => texts (twoStrings asmEncode)
  | ['d', 'e', 't', 'e', 'c', 't'] => texts (twoStrings asmDetect)
  | _ => .error .badForm

/-- The commands of the tokens of a line; a line without a mnemonic gives none. Mnemonics are case-insensitive (R80). -/
def assembleTokens : List Token → Except AsmError (List Instr)
  | [] => .ok []
  | .word m :: operands => assembleForm (m.map Char.toLower) operands
  | _ :: _ => .error .badForm

/-- The commands of one line (R80, R81). -/
def assembleLine (line : List Char) : Except AsmError (List Instr) :=
  match lex (.plain []) line with
  | .ok ts => assembleTokens ts
  | .error e => .error e

/-- The words of a program, a list of lines (R80). -/
def assemble : List (List Char) → Except AsmError (List Word)
  | [] => .ok []
  | l :: ls => match assembleLine l, assemble ls with
    | .ok is, .ok ws => .ok (is.map encode ++ ws)
    | .error e, _ => .error e
    | _, .error e => .error e

end Sys2Proof.Machine
end

