-- ==== Sys2Proof/Machine/Reference.lean ====
section
/-! DEFINITION. The external reference function InjectError (00_scope.md R5): not part of the block; host programs use it to simulate a channel. Log entry 17. -/

namespace Sys2Proof.Machine

/-- `C` with the bit at 0-based index `j` flipped. -/
def flipAt : Nat → Bits → Bits
  | _, [] => []
  | 0, b :: bs => (!b) :: bs
  | j + 1, b :: bs => b :: flipAt j bs

/-- `InjectError(C, p)` (00_scope.md R5): `p` counts from 1 at the leftmost bit. -/
def injectError (c : Bits) (p : Nat) : Except ErrorCode Bits :=
  if p < 1 ∨ p > c.length then .error .positionOutOfRange else .ok (flipAt (p - 1) c)

/-- The bitwise XOR of two sequences of equal length (40_polynomial_register.md R106). -/
def xorBits (s t : Bits) : Bits := List.zipWith Bool.xor s t

end Sys2Proof.Machine
end

