-- ==== Sys2Proof/Machine/Timing.lean ====
section
/-! DEFINITION. The work of a command and the lower bound of its duration (70_reset_and_hazards.md R240, 40_polynomial_register.md R107). The machine itself has no time. -/

namespace Sys2Proof.Machine

/-- The bits a command processes in state `s` (R240): k for GBITS and DBITS, 1 for GCHR and DCHR, N-1 for END in
ENC, 0 otherwise. -/
def bitsProcessed (i : Instr) (s : State) : Nat :=
  match i with
  | .nop => 0
  | .bege => 0
  | .begd => 0
  | .gbits k _ => k
  | .gchr _ => 1
  | .dbits k _ => k
  | .dchr _ => 1
  | .finish =>
    match s.mode with
    | .enc => s.glen.toNat - 1
    | .det => 0

/-- The least duration of a command (R240), in the open parameters T_CMD and T_BIT. Log entry 13. -/
def minDuration (i : Instr) (s : State) : Nat := Config.tCmd + bitsProcessed i s * Config.tBit

end Sys2Proof.Machine
end

