-- ==== Sys2Proof/Safety.lean ====
section
/-! DEFINITION. The terms claims use: the invariant of a command boundary (10_state.md R37), streams of commands and the bits they carry, a sequence of commands run in order (70_reset_and_hazards.md R230), the end of a run and its observation (R246), and polynomials over GF(2) (00_scope.md R11). -/

namespace Sys2Proof.Machine

/-- Valid generator sequences of a configuration (41_control_and_generator.md R125): length 2 to NMAX, leading bit 1. -/
def validGenerator (c : Config) (g : Bits) : Bool :=
  decide (2 ≤ g.length) && decide (g.length ≤ c.nmax) && (g.head? == some true)

/-- The bits one command appends to the generator, if it is a GBITS or a GCHR with a binary symbol (R123, R124). -/
def generatorBits : Instr → Option Bits
  | .nop => none
  | .bege => none
  | .begd => none
  | .gbits k v => some (payloadBits k v)
  | .gchr c => (symbolBit c).map fun b => [b]
  | .dbits _ _ => none
  | .dchr _ => none
  | .finish => none

/-- The bits one command feeds as data, if it is a DBITS or a DCHR with a binary symbol (R140, R141). -/
def dataBits : Instr → Option Bits
  | .nop => none
  | .bege => none
  | .begd => none
  | .gbits _ _ => none
  | .gchr _ => none
  | .dbits k v => some (payloadBits k v)
  | .dchr c => (symbolBit c).map fun b => [b]
  | .finish => none

/-- The row of the legality table a command stands in (R126). -/
def classOf : Instr → CommandClass
  | .nop => .nop
  | .bege => .opening
  | .begd => .opening
  | .gbits _ _ => .generator
  | .gchr _ => .generator
  | .dbits _ _ => .data
  | .dchr _ => .data
  | .finish => .finish

/-- The concatenated bits of a list of commands each of which carries bits; none if one does not. -/
def streamBits (f : Instr → Option Bits) : List Instr → Option Bits
  | [] => some []
  | i :: is =>
    match f i, streamBits f is with
    | some b, some bs => some (b ++ bs)
    | _, _ => none

/-- `gs` is a list of well-formed generator commands, in any mix, that together carry `g` (R123 (iii)). -/
def carriesGenerator (gs : List Instr) (g : Bits) : Prop :=
  gs.all Instr.wf = true ∧ streamBits generatorBits gs = some g

/-- `ds` is a list of well-formed data commands, in any mix, that together carry `m` (R140 (iii)). -/
def carriesData (ds : List Instr) (m : Bits) : Prop :=
  ds.all Instr.wf = true ∧ streamBits dataBits ds = some m

/-- A list of commands executed in order, each to completion (R61, R230). -/
def runCommands : List Instr → State → Result
  | [], s => .next s
  | i :: is, s =>
    match exec i s with
    | .next s' => runCommands is s'
    | .fault r => .fault r
    | .refused r => .refused r

/-- The registers of R20 other than PHASE and ECODE. -/
def sameRegisters (s t : State) : Prop :=
  t.mode = s.mode ∧ t.gen = s.gen ∧ t.glen = s.glen ∧ t.len = s.len ∧ t.reg = s.reg ∧ t.res = s.res ∧
    t.hasErr = s.hasErr ∧ t.cout = s.cout

/-- What no command touches: the command in progress, the configuration and the host's side. -/
def sameOutside (s t : State) : Prop :=
  t.inProgress = s.inProgress ∧ t.config = s.config ∧ t.host = s.host ∧ t.cwReady = s.cwReady ∧
    t.rdTrace = s.rdTrace ∧ t.draws = s.draws

/-- The message bits that COUT holds in an encode operation (R30, R145): all of it in DATA, all but the N-1
checksum bits in DONE. -/
def messageBits (s : State) : Bits :=
  match s.phase with
  | .done => s.cout.take (s.cout.length - (s.glen.toNat - 1))
  | _ => s.cout

/-- The global invariants of a state, R37 (1) to (5) and (7) with R6, R24 to R31, and R37 (6) with what RES and REG are
in an encode operation (R144). -/
structure Inv (s : State) : Prop where
  /-- R6: a legal configuration. -/
  configOk : s.config.valid = true
  /-- R37 (1). -/
  genBound : s.gen.toNat < 2 ^ s.glen.toNat
  /-- R37 (1). -/
  regBound : s.reg.toNat < 2 ^ s.glen.toNat
  /-- R37 (2). -/
  glenBound : s.glen.toNat ≤ s.config.nmax
  /-- R37 (3): PHASE = IDLE, every other register is at its reset value. -/
  idleClear : s.phase = .idle → s.mode = .enc ∧ s.gen = 0 ∧ s.glen = 0 ∧ s.len = 0 ∧ s.reg = 0 ∧ s.res = 0 ∧
    s.hasErr = false ∧ s.cout = []
  /-- R37 (4). -/
  generatorValid : s.phase = .data ∨ s.phase = .done → generatorOk s = true
  /-- R37 (5). -/
  genClear : s.phase = .gen → s.reg = 0 ∧ s.len = 0 ∧ s.res = 0 ∧ s.hasErr = false ∧ s.cout = []
  /-- R28, R29: no result before END. -/
  dataClear : s.phase = .data → s.res = 0 ∧ s.hasErr = false
  /-- R28, R143, R160: RES is N-1 bits wide, and REG = RES. -/
  doneResult : s.phase = .done → s.res.toNat < 2 ^ (s.glen.toNat - 1) ∧ s.reg = s.res
  /-- R29: HASERR in DONE. -/
  doneHasErr : s.phase = .done → s.hasErr = (decide (s.mode = .det) && s.res != 0)
  /-- R30: in DET nothing is emitted. -/
  detSilent : s.phase = .data ∨ s.phase = .done → s.mode = .det → s.cout = []
  /-- R140, R145: in ENC, COUT is the message so far, LEN counts it and REG is its partial remainder. -/
  encData : s.phase = .data → s.mode = .enc →
    s.len.toNat = sat32 s.cout.length ∧ s.reg = divSteps 0 s.gen s.glen.toNat s.cout
  /-- R37 (6), R144: in ENC at DONE, COUT is the message and then the N-1 bits of RES, and RES is the remainder of the
  extended message. -/
  encDone : s.phase = .done → s.mode = .enc →
    s.glen.toNat - 1 ≤ s.cout.length ∧
      s.cout = messageBits s ++ bitsOf (s.glen.toNat - 1) s.res.toNat ∧
      s.len.toNat = sat32 (messageBits s).length ∧
      s.res = lowBits (s.glen.toNat - 1) (remReg (messageBits s ++ zeros (s.glen.toNat - 1)) s.gen s.glen.toNat)
  /-- R37 (7). -/
  ecodePhase : s.ecode ≠ .none ↔ s.phase = .error
  /-- R200: code 3 is never produced. -/
  ecodeRange : s.ecode ≠ .positionOutOfRange

/-- The end of a run (R246): the host has no action left and BUSY = 0. -/
def finished (s : State) : Bool := s.host.isEmpty && !s.busy

/-- The observation at the end of a run (R246). -/
structure Observation where
  status : Word
  glen : BitVec 7
  len : BitVec 32
  res : Reg64
  gen : Reg64
  reg : Reg64
  cout : Bits
  deriving DecidableEq, Repr

/-- The tuple of R246. -/
def observation (s : State) : Observation :=
  { status := statusWord s, glen := s.glen, len := s.len, res := s.res, gen := s.gen, reg := s.reg, cout := s.cout }

/-- The polynomial over GF(2) of a bit sequence (00_scope.md R11): the leftmost bit has the highest degree. -/
noncomputable def seqPoly (s : Bits) : Polynomial (ZMod 2) :=
  s.foldl (fun p b => p * Polynomial.X + Polynomial.C (if b then 1 else 0)) 0

end Sys2Proof.Machine
end

