-- ==== Sys2Proof/Certificates/Slice0/Obligations.lean ====
section
/-! DEFINITION. The statements for the provers. Each cites the rule of spec/ it formalises; OBLIGATIONS.json lists them. -/

open Sys2Proof Sys2Proof.Machine

/-! ### Encoding -/

/-- R78: the words of the commands; a well-formed command has exactly one word, and every legal word decodes to a
well-formed command that encodes to it. -/
def Obligations.CommandEncodingIsUnique : Prop :=
  encode .nop = 0x00000000#32 ∧ encode .bege = 0x10000000#32 ∧ encode .begd = 0x20000000#32 ∧
  encode .finish = 0x70000000#32 ∧
  (∀ (k : Nat) (v : BitVec 16), packedOk k v = true →
    encode (.gbits k v) = BitVec.ofNat 32 (0x30000000 + (k - 1) * 2 ^ 16 + v.toNat) ∧
    encode (.dbits k v) = BitVec.ofNat 32 (0x50000000 + (k - 1) * 2 ^ 16 + v.toNat)) ∧
  (∀ c : BitVec 8,
    encode (.gchr c) = BitVec.ofNat 32 (0x40000000 + c.toNat) ∧
    encode (.dchr c) = BitVec.ofNat 32 (0x60000000 + c.toNat)) ∧
  (∀ i : Instr, i.WellFormed → ∀ w : Word, decode w = .legal i ↔ w = encode i) ∧
  (∀ (w : Word) (i : Instr), decode w = .legal i → i.WellFormed ∧ encode i = w)

/-- R76: the decode function on every word, its fields taken from the word as a number. -/
def Obligations.DecodeReadsTheFields : Prop :=
  ∀ w : Word,
    let op := w.toNat / 2 ^ 28
    let low := w.toNat % 2 ^ 28
    let k := w.toNat / 2 ^ 16 % 16 + 1
    let pay := w.toNat % 2 ^ 16
    let ch := w.toNat % 2 ^ 8
    (decode w).command =
      if op = 0 ∧ low = 0 then some .nop
      else if op = 1 ∧ low = 0 then some .bege
      else if op = 2 ∧ low = 0 then some .begd
      else if op = 3 ∧ low / 2 ^ 20 = 0 ∧ (k < 16 → pay / 2 ^ k = 0) then some (.gbits k (BitVec.ofNat 16 pay))
      else if op = 4 ∧ low / 2 ^ 8 = 0 then some (.gchr (BitVec.ofNat 8 ch))
      else if op = 5 ∧ low / 2 ^ 20 = 0 ∧ (k < 16 → pay / 2 ^ k = 0) then some (.dbits k (BitVec.ofNat 16 pay))
      else if op = 6 ∧ low / 2 ^ 8 = 0 then some (.dchr (BitVec.ofNat 8 ch))
      else if op = 7 ∧ low = 0 then some .finish
      else none

/-- R77: which words are illegal, and that executing one raises IllegalCommand (and is ignored in ERROR, R205);
the word 0x00000000 is NOP. -/
def Obligations.IllegalWordsRaiseIllegalCommand : Prop :=
  (∀ w : Word,
    let op := w.toNat / 2 ^ 28
    let low := w.toNat % 2 ^ 28
    let k := w.toNat / 2 ^ 16 % 16 + 1
    let pay := w.toNat % 2 ^ 16
    ((∃ why, decode w = .illegal why) ↔
      8 ≤ op ∨
      ((op = 0 ∨ op = 1 ∨ op = 2 ∨ op = 7) ∧ low ≠ 0) ∨
      ((op = 3 ∨ op = 5) ∧ (low / 2 ^ 20 ≠ 0 ∨ (k < 16 ∧ pay / 2 ^ k ≠ 0))) ∨
      ((op = 4 ∨ op = 6) ∧ low / 2 ^ 8 ≠ 0))) ∧
  (∀ (w : Word) (why : IllegalWord) (s : State), decode w = .illegal why →
    execWord w s =
      .next (if s.phase = .error then s else { s with phase := .error, ecode := .illegalCommand })) ∧
  decode 0 = .legal .nop

/-- Words written out from the encoding tables (R71, R72) and the vectors of 95_test_vectors.md decode to their commands. -/
def Obligations.SpecWordsDecode : Prop :=
  decode 0x00000000 = .legal .nop ∧
  decode 0x10000000 = .legal .bege ∧
  decode 0x3003000D = .legal (.gbits 4 0xD) ∧
  decode 0x40000031 = .legal (.gchr 0x31) ∧
  decode 0x5006005C = .legal (.dbits 7 0x5C) ∧
  decode 0x60000078 = .legal (.dchr 0x78) ∧
  decode 0x70000000 = .legal .finish ∧
  decode 0x5000FFFE = .illegal .strayPayload ∧
  decode 0x40000100 = .illegal .reservedBits ∧
  decode 0x80000000 = .illegal .opcode

/-! ### Commands -/

/-- R120: NOP changes nothing, in any phase, and has one word. -/
def Obligations.NopChangesNothing : Prop :=
  (∀ s : State, exec .nop s = .next s) ∧ ∀ w : Word, decode w = .legal .nop ↔ w = 0

/-- R121: BEGE, from every state of every phase: every register it writes, and nothing else. -/
def Obligations.BegeOpensEncode : Prop :=
  (∀ s : State, exec .bege s =
    .next { s with phase := .gen, mode := .enc, gen := 0, glen := 0, len := 0, reg := 0, res := 0, hasErr := false,
                   ecode := .none, cout := [] }) ∧
  (∀ s t : State, exec .bege s = .next t → t.valid = false ∧ t.err = false) ∧
  ∀ t : State, exec .bege State.reset = .next t → statusWord t = 0x00000001

/-- R122: BEGD, as BEGE but MODE = DET. -/
def Obligations.BegdOpensDetect : Prop :=
  (∀ s : State, exec .begd s =
    .next { s with phase := .gen, mode := .det, gen := 0, glen := 0, len := 0, reg := 0, res := 0, hasErr := false,
                   ecode := .none, cout := [] }) ∧
  (∀ s t : State, exec .begd s = .next t → t.valid = false ∧ t.err = false) ∧
  ∀ t : State, exec .begd State.reset = .next t → statusWord t = 0x00000009

/-- R123: GBITS k, v in every phase: the k payload bits enter GEN at the low end whole, or CapacityExceeded. -/
def Obligations.GbitsAppendsWholePayload : Prop :=
  ∀ (k : Nat) (v : BitVec 16) (s : State), packedOk k v = true →
    exec (.gbits k v) s = .next (
      if s.phase = .error then s
      else if s.phase ≠ .gen then errorEntry .illegalCommand s
      else if s.glen.toNat + k > s.config.nmax then errorEntry .capacityExceeded s
      else { s with gen := s.gen <<< k ||| v.setWidth 64, glen := BitVec.ofNat 7 (s.glen.toNat + k) })

/-- R124: GCHR c in every phase, for every symbol code. -/
def Obligations.GchrAppendsSymbol : Prop :=
  ∀ (c : BitVec 8) (s : State),
    exec (.gchr c) s = .next (
      if s.phase = .error then s
      else if s.phase ≠ .gen then errorEntry .illegalCommand s
      else if c.toNat ≠ 0x30 ∧ c.toNat ≠ 0x31 then errorEntry .invalidAlphabet s
      else if s.glen.toNat + 1 > s.config.nmax then errorEntry .capacityExceeded s
      else { s with gen := s.gen <<< 1 ||| BitVec.ofNat 64 (c.toNat - 0x30),
                    glen := BitVec.ofNat 7 (s.glen.toNat + 1) })

/-- R125: ValidateGen at the first DBITS, DCHR (with a binary symbol) or END of an operation: a generator shorter than
2 bits, or with leading bit 0, raises InvalidGenerator; else the command runs as it does in PHASE DATA. From there on the
generator is valid in every state that meets the invariant. -/
def Obligations.FirstDataCommandValidatesGenerator : Prop :=
  (∀ (i : Instr) (s : State), s.phase = .gen → i = .finish ∨ (dataBits i).isSome = true →
    exec i s =
      if s.glen.toNat < 2 ∨ s.gen.toNat / 2 ^ (s.glen.toNat - 1) % 2 = 0 then .next (errorEntry .invalidGenerator s)
      else exec i { s with phase := .data }) ∧
  ∀ s : State, Inv s → s.phase = .data ∨ s.phase = .done →
    2 ≤ s.glen.toNat ∧ s.glen.toNat ≤ s.config.nmax ∧
    2 ^ (s.glen.toNat - 1) ≤ s.gen.toNat ∧ s.gen.toNat < 2 ^ s.glen.toNat

/-- R140: DBITS k, v in every phase: one Step per bit, LEN counts with saturation, the bits are echoed in ENC only. -/
def Obligations.DbitsFeedsBits : Prop :=
  ∀ (k : Nat) (v : BitVec 16) (s : State), packedOk k v = true →
    exec (.dbits k v) s = .next (
      if s.phase = .error then s
      else if s.phase = .idle ∨ s.phase = .done then errorEntry .illegalCommand s
      else if s.phase = .gen ∧ generatorOk s = false then errorEntry .invalidGenerator s
      else { s with phase := .data,
                    reg := divSteps s.reg s.gen s.glen.toNat (bitsOf k v.toNat),
                    len := BitVec.ofNat 32 (min (s.len.toNat + k) (2 ^ 32 - 1)),
                    cout := if s.mode = .enc then s.cout ++ bitsOf k v.toNat else s.cout })

/-- R141: DCHR c in every phase, for every symbol code. -/
def Obligations.DchrFeedsSymbol : Prop :=
  ∀ (c : BitVec 8) (s : State),
    exec (.dchr c) s = .next (
      if s.phase = .error then s
      else if s.phase = .idle ∨ s.phase = .done then errorEntry .illegalCommand s
      else if c.toNat ≠ 0x30 ∧ c.toNat ≠ 0x31 then errorEntry .invalidAlphabet s
      else if s.phase = .gen ∧ generatorOk s = false then errorEntry .invalidGenerator s
      else { s with phase := .data,
                    reg := divStep s.reg s.gen s.glen.toNat (c.toNat == 0x31),
                    len := BitVec.ofNat 32 (min (s.len.toNat + 1) (2 ^ 32 - 1)),
                    cout := if s.mode = .enc then s.cout ++ [c.toNat == 0x31] else s.cout })

/-- R143: END in ENC, in PHASE DATA or in PHASE GEN with a valid generator: N-1 zero Steps, Reduce, RES, the checksum
bits emitted, PHASE DONE, nothing else. Where the invariant holds, REG = RES, and with no data bit fed (A = 0) the
checksum is all zeros. -/
def Obligations.EndEncodeStoresChecksum : Prop :=
  ∀ s : State, s.mode = .enc → s.phase = .data ∨ (s.phase = .gen ∧ generatorOk s = true) →
    let n := s.glen.toNat
    let r := reduce ((fun x => divStep x s.gen n false)^[n - 1] s.reg) s.gen n
    exec .finish s =
      .next { s with phase := .done, reg := r, res := lowBits (n - 1) r,
                     cout := s.cout ++ bitsOf (n - 1) (r.toNat % 2 ^ (n - 1)) } ∧
    (Inv s → lowBits (n - 1) r = r) ∧
    (Inv s → s.len = 0 →
      exec .finish s =
        .next { s with phase := .done, reg := 0, res := 0, cout := List.replicate (n - 1) false })

/-- R160: END in DET, in PHASE DATA or in PHASE GEN with a valid generator. -/
def Obligations.EndDetectStoresSyndrome : Prop :=
  ∀ s : State, s.mode = .det → s.phase = .data ∨ (s.phase = .gen ∧ generatorOk s = true) →
    let n := s.glen.toNat
    let r := reduce s.reg s.gen n
    exec .finish s = .next (
      if s.len.toNat < n then errorEntry .inputTooShort s
      else { s with phase := .done, reg := r, res := lowBits (n - 1) r,
                    hasErr := decide (r.toNat % 2 ^ (n - 1) ≠ 0) })

/-- R162: the syndrome test covers all N-1 bits of RES. -/
def Obligations.SyndromeTestCoversEveryBit : Prop :=
  ∀ s : State, Inv s → s.phase = .data → s.mode = .det → s.glen.toNat ≤ s.len.toNat →
    ∃ t : State, exec .finish s = .next t ∧ t.phase = .done ∧
      (t.hasErr = true ↔ ∃ j, j < s.glen.toNat - 1 ∧ t.res.getLsbD j = true) ∧
      (t.hasErr = true ↔ t.res ≠ 0)

/-- R123 (iii), R81: how a generator is split over commands has no effect: any mix that carries `g` appends `g`. -/
def Obligations.GeneratorChunkingHasNoEffect : Prop :=
  ∀ (gs : List Instr) (g : Bits) (s : State), s.config.valid = true → s.phase = .gen → carriesGenerator gs g →
    s.glen.toNat + g.length ≤ s.config.nmax →
    runCommands gs s =
      .next { s with gen := BitVec.ofNat 64 (s.gen.toNat * 2 ^ g.length + bitsVal g),
                     glen := BitVec.ofNat 7 (s.glen.toNat + g.length) }

/-- R140 (iii), R81: how the data are split over commands has no effect: any mix that carries `m` feeds `m`. -/
def Obligations.DataChunkingHasNoEffect : Prop :=
  ∀ (ds : List Instr) (m : Bits) (s : State), s.phase = .data → carriesData ds m →
    runCommands ds s =
      .next { s with reg := divSteps s.reg s.gen s.glen.toNat m,
                     len := BitVec.ofNat 32 (min (s.len.toNat + m.length) (2 ^ 32 - 1)),
                     cout := if s.mode = .enc then s.cout ++ m else s.cout }

/-! ### The datapath -/

/-- R100, R101: Step and Reduce as arithmetic on numbers, on their operand domain; the bit Step drops is 0. -/
def Obligations.StepAndReduceArithmetic : Prop :=
  ∀ (r g : Reg64) (n : Nat) (b : Bool), 2 ≤ n → n ≤ 64 → 2 ^ (n - 1) ≤ g.toNat → g.toNat < 2 ^ n →
    r.toNat < 2 ^ n →
    let r1 := if r.toNat / 2 ^ (n - 1) = 1 then r.toNat ^^^ g.toNat else r.toNat
    (divStep r g n b).toNat = (2 * r1 + b.toNat) % 2 ^ n ∧
    2 * r1 + b.toNat < 2 ^ n ∧
    (reduce r g n).toNat = r1 ∧
    (reduce r g n).toNat < 2 ^ (n - 1)

/-- R105: Step stays below 2^N, Reduce below 2^(N-1), and every command leaves `REG < 2^GLEN`. -/
def Obligations.RegisterStaysBelowActiveWidth : Prop :=
  (∀ (r g : Reg64) (n : Nat) (b : Bool), 2 ≤ n → n ≤ 64 → 2 ^ (n - 1) ≤ g.toNat → g.toNat < 2 ^ n →
    r.toNat < 2 ^ n → (divStep r g n b).toNat < 2 ^ n ∧ (reduce r g n).toNat < 2 ^ (n - 1)) ∧
  ∀ (i : Instr) (s t : State), Inv s → exec i s = .next t → t.reg.toNat < 2 ^ t.glen.toNat

/-- R103: for `len(S) >= N` the document's procedure gives the same remainder; the first N Steps only shift. -/
def Obligations.RemAgreesWithTheDocumentsProcedure : Prop :=
  ∀ (c : Config) (s g : Bits), c.valid = true → validGenerator c g = true → g.length ≤ s.length →
    divSteps 0 (BitVec.ofNat 64 (bitsVal g)) g.length (s.take g.length) = BitVec.ofNat 64 (bitsVal (s.take g.length)) ∧
    rem s g = remFromFirstBits s g

/-- R104: Rem is the remainder of polynomial division over GF(2). -/
def Obligations.RemIsPolynomialRemainder : Prop :=
  ∀ (c : Config) (s g : Bits), c.valid = true → validGenerator c g = true →
    (rem s g).length = g.length - 1 ∧ seqPoly (rem s g) = seqPoly s %ₘ seqPoly g

/-- R106: Rem is linear; a corrupted codeword has the syndrome of its error pattern. -/
def Obligations.RemIsLinear : Prop :=
  ∀ (c : Config) (s e g : Bits), c.valid = true → validGenerator c g = true → s.length = e.length →
    rem (xorBits s e) g = xorBits (rem s g) (rem e g) ∧
    (rem s g = zeros (g.length - 1) → rem (xorBits s e) g = rem e g)

/-! ### Whole operations -/

/-- R144: the result of an encode operation, from every state, for any chunking of G and M. -/
def Obligations.EncodeOperationResult : Prop :=
  ∀ (s : State) (gs ds : List Instr) (g m : Bits), s.config.valid = true → validGenerator s.config g = true →
    carriesGenerator gs g → carriesData ds m →
    let n := g.length
    let r := rem (m ++ zeros (n - 1)) g
    runCommands (.bege :: gs ++ ds ++ [.finish]) s =
      .next { s with phase := .done, mode := .enc, gen := BitVec.ofNat 64 (bitsVal g), glen := BitVec.ofNat 7 n,
                     len := BitVec.ofNat 32 (sat32 m.length), reg := BitVec.ofNat 64 (bitsVal r),
                     res := BitVec.ofNat 64 (bitsVal r), hasErr := false, cout := m ++ r, ecode := .none } ∧
    r.length = n - 1 ∧
    seqPoly r = (seqPoly m * Polynomial.X ^ (n - 1)) %ₘ seqPoly g

/-- R161: the result of a detect operation, from every state, for any chunking of G and C with `len(C) >= N`. -/
def Obligations.DetectOperationResult : Prop :=
  ∀ (s : State) (gs cs : List Instr) (g c : Bits), s.config.valid = true → validGenerator s.config g = true →
    carriesGenerator gs g → carriesData cs c → g.length ≤ c.length →
    let r := rem c g
    runCommands (.begd :: gs ++ cs ++ [.finish]) s =
      .next { s with phase := .done, mode := .det, gen := BitVec.ofNat 64 (bitsVal g),
                     glen := BitVec.ofNat 7 g.length,
                     len := BitVec.ofNat 32 (sat32 c.length), reg := BitVec.ofNat 64 (bitsVal r),
                     res := BitVec.ofNat 64 (bitsVal r), hasErr := decide (bitsVal r ≠ 0), cout := [],
                     ecode := .none }

/-- R163: encode and then detect the codeword: no error for a message of at least one bit, InputTooShort for the empty
message. -/
def Obligations.EncodeThenDetectFindsNoError : Prop :=
  ∀ (s t : State) (gs gs' ds cs : List Instr) (g m : Bits), s.config.valid = true → validGenerator s.config g = true →
    carriesGenerator gs g → carriesGenerator gs' g → carriesData ds m →
    runCommands (.bege :: gs ++ ds ++ [.finish]) s = .next t → carriesData cs t.cout →
    ∃ u : State, runCommands (.begd :: gs' ++ cs ++ [.finish]) t = .next u ∧
      (m ≠ [] → u.phase = .done ∧ u.hasErr = false ∧ u.res = 0) ∧
      (m = [] → u.phase = .error ∧ u.ecode = .inputTooShort)

/-- R164: an error pattern E on a valid codeword is detected exactly when its remainder is not zero: (a) never when G
divides E, (b) always for a burst shorter than G when the lowest bit of G is 1, (c) not always otherwise. -/
def Obligations.ErrorPatternDetection : Prop :=
  (∀ (s : State) (gs cs : List Instr) (g c e : Bits), s.config.valid = true → validGenerator s.config g = true →
    carriesGenerator gs g → g.length ≤ c.length → rem c g = zeros (g.length - 1) → e.length = c.length →
    carriesData cs (xorBits c e) →
    ∃ u : State, runCommands (.begd :: gs ++ cs ++ [.finish]) s = .next u ∧ u.phase = .done ∧
      (u.hasErr = true ↔ rem e g ≠ zeros (g.length - 1)) ∧
      (seqPoly g ∣ seqPoly e → u.hasErr = false) ∧
      (∀ (a b z : Bits), g.getLast? = some true → e = zeros a.length ++ b ++ zeros z.length →
        b.length ≤ g.length - 1 → true ∈ b → u.hasErr = true)) ∧
  rem [false, false, false, false] [true, true, false] = zeros 2 ∧
  rem [true, true, false, false] [true, true, false] = zeros 2

/-- R165: flipping one bit of a codeword of a message of at least one bit. -/
def Obligations.SingleBitDetection : Prop :=
  ∀ (s : State) (gs cs : List Instr) (g m c c' : Bits) (p : Nat), s.config.valid = true →
    validGenerator s.config g = true → carriesGenerator gs g → m ≠ [] →
    c = m ++ rem (m ++ zeros (g.length - 1)) g → injectError c p = .ok c' → carriesData cs c' →
    ∃ u : State, runCommands (.begd :: gs ++ cs ++ [.finish]) s = .next u ∧ u.phase = .done ∧
      (g ≠ true :: zeros (g.length - 1) → u.hasErr = true) ∧
      (g = true :: zeros (g.length - 1) → (u.hasErr = false ↔ p ≤ c.length - g.length + 1))

/-- R147: encoding again the message part of a codeword gives the same checksum. -/
def Obligations.ChecksumIsRederivable : Prop :=
  ∀ (s t : State) (gs gs' ds ds' : List Instr) (g m : Bits), s.config.valid = true →
    validGenerator s.config g = true → carriesGenerator gs g → carriesGenerator gs' g → carriesData ds m →
    runCommands (.bege :: gs ++ ds ++ [.finish]) s = .next t →
    carriesData ds' (t.cout.take (t.cout.length - (g.length - 1))) →
    ∃ u : State, runCommands (.bege :: gs' ++ ds' ++ [.finish]) t = .next u ∧ u.phase = .done ∧ u.res = t.res ∧
      u.cout = t.cout

/-! ### Errors -/

/-- R204: a command that raises an error writes PHASE and ECODE and nothing else. -/
def Obligations.ErrorsArePrecise : Prop :=
  ∀ (w : Word) (s t : State), s.phase ≠ .error → execWord w s = .next t → t.phase = .error →
    t = { s with phase := .error, ecode := t.ecode } ∧ t.ecode ≠ .none

/-- R205: in PHASE ERROR, NOP, BEGE and BEGD execute normally and every other word, illegal ones included, is ignored. -/
def Obligations.ErrorPhaseIgnoresOtherWords : Prop :=
  ∀ (w : Word) (s : State), s.phase = .error →
    execWord w s =
      if w = 0x10000000 then .next (openOperation .enc s)
      else if w = 0x20000000 then .next (openOperation .det s)
      else .next s

/-- R206: BEGE and BEGD leave PHASE ERROR with ECODE 0 and every per-operation register cleared; so does reset.
Model's choice: log entries 1, 8, 23. -/
def Obligations.OpeningAndResetLeaveError : Prop :=
  ∀ s : State, s.phase = .error →
    (∀ i : Instr, i = .bege ∨ i = .begd → ∃ t : State, exec i s = .next t ∧ t.phase = .gen ∧ t.ecode = .none ∧
      t.gen = 0 ∧ t.glen = 0 ∧ t.len = 0 ∧ t.reg = 0 ∧ t.res = 0 ∧ t.hasErr = false ∧ t.cout = []) ∧
    ∀ rest : List HostAction, s.config.valid = true → s.host = .reset :: rest →
      ∃ t : State, step s = .next t ∧ t.phase = .idle ∧ t.ecode = .none

/-- R201: the errors each command can raise. -/
def Obligations.ErrorsEachCommandCanRaise : Prop :=
  ∀ (i : Instr) (s t : State), s.phase ≠ .error → exec i s = .next t → t.phase = .error →
    match i with
    | .nop => False
    | .bege => False
    | .begd => False
    | .gbits _ _ => t.ecode = .illegalCommand ∨ t.ecode = .capacityExceeded
    | .gchr _ => t.ecode = .illegalCommand ∨ t.ecode = .invalidAlphabet ∨ t.ecode = .capacityExceeded
    | .dbits _ _ => t.ecode = .illegalCommand ∨ (s.phase = .gen ∧ t.ecode = .invalidGenerator)
    | .dchr _ => t.ecode = .illegalCommand ∨ t.ecode = .invalidAlphabet ∨
        (s.phase = .gen ∧ t.ecode = .invalidGenerator)
    | .finish => t.ecode = .illegalCommand ∨ (s.phase = .gen ∧ t.ecode = .invalidGenerator) ∨
        (s.mode = .det ∧ t.ecode = .inputTooShort)

/-- R202: the order of errors within one command, and that a later command cannot change ECODE. -/
def Obligations.ErrorPriority : Prop :=
  (∀ s : State, s.phase ≠ .error →
    (∀ (w : Word) (why : IllegalWord), decode w = .illegal why → execWord w s = .next (errorEntry .illegalCommand s)) ∧
    (∀ i : Instr, legality (classOf i) s.phase = .no → exec i s = .next (errorEntry .illegalCommand s)) ∧
    (∀ c : BitVec 8, c ≠ 0x30 → c ≠ 0x31 →
      (s.phase = .gen → exec (.gchr c) s = .next (errorEntry .invalidAlphabet s)) ∧
      (s.phase = .gen ∨ s.phase = .data → exec (.dchr c) s = .next (errorEntry .invalidAlphabet s))) ∧
    (∀ i : Instr, s.phase = .gen → generatorOk s = false → i = .finish ∨ (dataBits i).isSome = true →
      exec i s = .next (errorEntry .invalidGenerator s)) ∧
    (∀ (i : Instr) (bs : Bits), s.phase = .gen → i.WellFormed → generatorBits i = some bs →
      s.glen.toNat + bs.length > s.config.nmax → exec i s = .next (errorEntry .capacityExceeded s)) ∧
    (s.phase = .data ∨ (s.phase = .gen ∧ generatorOk s = true) → s.mode = .det → s.len.toNat < s.glen.toNat →
      exec .finish s = .next (errorEntry .inputTooShort s))) ∧
  ∀ (w : Word) (s t : State), s.phase = .error → execWord w s = .next t → t.phase = .error → t.ecode = s.ecode

/-- R126: the phase legality table. -/
def Obligations.PhaseLegalityTable : Prop :=
  ∀ s : State,
    exec .nop s = .next s ∧
    (∀ i : Instr, classOf i = .opening → ∃ t : State, exec i s = .next t ∧ t.phase = .gen) ∧
    (∀ i : Instr, classOf i = .generator →
      (s.phase = .idle ∨ s.phase = .data ∨ s.phase = .done → exec i s = .next (errorEntry .illegalCommand s)) ∧
      (s.phase = .error → exec i s = .next s) ∧
      (s.phase = .gen → ∃ t : State, exec i s = .next t ∧ (t.phase = .error → t.ecode ≠ .illegalCommand))) ∧
    (∀ i : Instr, classOf i = .data ∨ classOf i = .finish →
      (s.phase = .idle ∨ s.phase = .done → exec i s = .next (errorEntry .illegalCommand s)) ∧
      (s.phase = .error → exec i s = .next s) ∧
      (s.phase = .gen ∨ s.phase = .data →
        ∃ t : State, exec i s = .next t ∧ (t.phase = .error → t.ecode ≠ .illegalCommand))) ∧
    (∀ (w : Word) (why : IllegalWord), decode w = .illegal why →
      execWord w s = .next (if s.phase = .error then s else errorEntry .illegalCommand s))

/-! ### State, ports and the step -/

/-- R33: the fields of STATUS, with the codes of ECODE as R200 numbers them, and its value after reset. -/
def Obligations.StatusWordFields : Prop :=
  (∀ s : State,
    (statusWord s).extractLsb' 0 3 = phaseCode s.phase ∧
    (statusWord s).extractLsb' 3 1 = modeCode s.mode ∧
    ((statusWord s).getLsbD 4 = true ↔ s.phase = .done) ∧
    (statusWord s).getLsbD 5 = s.hasErr ∧
    ((statusWord s).getLsbD 6 = true ↔ s.phase = .error) ∧
    (statusWord s).getLsbD 7 = s.inProgress.isSome ∧
    (statusWord s).extractLsb' 8 4 = errorCodeBits s.ecode ∧
    (statusWord s).extractLsb' 12 20 = 0) ∧
  (errorCodeBits .none = 0 ∧ errorCodeBits .invalidAlphabet = 1 ∧ errorCodeBits .invalidGenerator = 2 ∧
    errorCodeBits .positionOutOfRange = 3 ∧ errorCodeBits .inputTooShort = 4 ∧ errorCodeBits .illegalCommand = 5 ∧
    errorCodeBits .capacityExceeded = 6) ∧
  statusWord State.reset = 0

/-- R53: the read map, and PARAM of the reference configuration. -/
def Obligations.ReadMapWords : Prop :=
  (∀ s : State,
    readMap s 0 = statusWord s ∧
    (readMap s 1).toNat = s.glen.toNat ∧
    readMap s 2 = s.len ∧
    (readMap s 3).toNat = s.res.toNat % 2 ^ 32 ∧ (readMap s 4).toNat = s.res.toNat / 2 ^ 32 ∧
    (readMap s 5).toNat = s.gen.toNat % 2 ^ 32 ∧ (readMap s 6).toNat = s.gen.toNat / 2 ^ 32 ∧
    (readMap s 7).toNat = s.reg.toNat % 2 ^ 32 ∧ (readMap s 8).toNat = s.reg.toNat / 2 ^ 32 ∧
    (s.config.valid = true → (readMap s 9).toNat = s.config.nmax) ∧
    ∀ a : BitVec 4, 10 ≤ a.toNat → readMap s a = 0) ∧
  readMap State.reset 9 = 0x00000040

/-- R52: a read at a command boundary gives the word of the read map and changes no register and no output.
Model's choice: log entries 1, 6. -/
def Obligations.ReadHasNoSideEffect : Prop :=
  ∀ (s : State) (a : BitVec 4) (rest : List HostAction), s.config.valid = true → s.inProgress = none →
    s.host = .read a :: rest →
    step s = .next { s with host := rest, rdTrace := s.rdTrace ++ [{ addr := a, data := readMap s a }] }

/-- R241: while BUSY = 1, STATUS reads exactly, with BUSY = 1 and the other fields as before the command; any other
word is a free value; no register changes. The value read is not constrained when `a` is not 0.
Model's choice: log entries 1, 5, 6, 23. -/
def Obligations.ReadWhileBusy : Prop :=
  ∀ (s : State) (a : BitVec 4) (w : Word) (rest : List HostAction), s.config.valid = true →
    s.inProgress = some w → s.host = .read a :: rest →
    ∃ d : Word,
      step s = .next { s with host := rest, rdTrace := s.rdTrace ++ [{ addr := a, data := d }],
                              draws := if a = 0 then s.draws else s.draws + 1 } ∧
      (a = 0 → d = statusWord { s with inProgress := none } ||| 0x80)

/-- R51: a word offered while BUSY = 0 is accepted; while BUSY = 1 it stays offered; the command in progress is executed
once and BUSY returns to 0 (the host taking the output bits).
Model's choice: log entries 1, 4, 23. -/
def Obligations.CommandPortHandshake : Prop :=
  ∀ (s : State) (w : Word) (rest : List HostAction), s.config.valid = true → s.host = .write w :: rest →
    (s.inProgress = none → step s = .next { s with inProgress := some w, host := rest }) ∧
    (∀ x : Word, s.inProgress = some x → ∃ t : State, step s = .next t ∧ t.host = .write w :: rest ∧
      (s.cwReady = true → t.inProgress = none ∧ execWord x { s with inProgress := none } = .next t))

/-- R55: while the host holds cw_ready = 0 a command that emits does not complete and BUSY stays 1; one that emits
nothing completes; emitted bits are appended to COUT in order.
Model's choice: log entries 1, 7, 23. -/
def Obligations.OutputBackPressure : Prop :=
  (∀ (s t : State) (w : Word) (rest : List HostAction), s.config.valid = true → s.inProgress = some w →
    s.cwReady = false → s.host = .await :: rest → execWord w { s with inProgress := none } = .next t →
    step s = .next (if s.cout.length < t.cout.length then s else t)) ∧
  ∀ (w : Word) (s t : State), execWord w s = .next t → t.cout = [] ∨ ∃ bs : Bits, t.cout = s.cout ++ bs

/-- R127, R230: when the command in progress decodes to `i` and the host's next action is not a read, reset or a change
of cw_ready, the step is `exec i` with BUSY cleared before it, unless the output stalls it (R55).
Model's choice: log entries 1, 4, 7, 23. -/
def Obligations.StepRunsAcceptedCommand : Prop :=
  ∀ (s : State) (w : Word) (i : Instr), s.config.valid = true → s.inProgress = some w → decode w = .legal i →
    s.host = [] ∨ s.host.head? = some .await ∨ (∃ x, s.host.head? = some (.write x)) →
    (s.cwReady = true → step s = exec i { s with inProgress := none }) ∧
    ∀ t : State, exec i { s with inProgress := none } = .next t →
      step s = .next (if s.cwReady = false ∧ s.cout.length < t.cout.length then s else t)

/-- R51, R233: a word the host writes and waits for, with BUSY = 0 and the output taken, is accepted, executed once and
complete after three steps: acceptance, execution, end of the wait.
Model's choice: log entries 1, 4, 11. -/
def Obligations.WrittenCommandCompletes : Prop :=
  ∀ (s : State) (w : Word) (rest : List HostAction), s.config.valid = true → s.inProgress = none →
    s.cwReady = true → s.host = .write w :: .await :: rest →
    ∃ t : State, execWord w { s with host := .await :: rest } = .next t ∧
      Host.Core.run Sys2Proof.core 3 s = .next { t with host := rest }

/-- R107 and the bits processed of R240, tied to what exec does: a data command that carries `bs` processes `bs.length`
bits and takes REG through one Step per bit; END takes N-1 Steps with bit 0 more in ENC and none in DET; a generator
command shifts one bit into GEN per bit and takes no Step; NOP, BEGE and BEGD process none. The sums over an operation
follow. The machine has no time: log entry 13. -/
def Obligations.WorkIsOneStepPerBit : Prop :=
  ∀ s : State,
    let n := s.glen.toNat
    let feeding := s.phase = .data ∨ (s.phase = .gen ∧ generatorOk s = true)
    (∀ (i : Instr) (bs : Bits), dataBits i = some bs →
      bs.length = bitsProcessed i s ∧
      (feeding → ∃ t : State, exec i s = .next t ∧ t.reg = bs.foldl (fun r b => divStep r s.gen n b) s.reg)) ∧
    (feeding → s.mode = .enc →
      bitsProcessed .finish s = n - 1 ∧
      ∃ t : State, exec .finish s = .next t ∧
        t.reg = reduce ((fun r => divStep r s.gen n false)^[bitsProcessed .finish s] s.reg) s.gen n) ∧
    (feeding → s.mode = .det → n ≤ s.len.toNat →
      bitsProcessed .finish s = 0 ∧
      ∃ t : State, exec .finish s = .next t ∧ t.reg = reduce s.reg s.gen n) ∧
    (∀ (i : Instr) (bs : Bits), generatorBits i = some bs →
      bs.length = bitsProcessed i s ∧
      (s.phase = .gen → n + bs.length ≤ s.config.nmax →
        ∃ t : State, exec i s = .next t ∧ t.gen = bs.foldl shiftIn s.gen ∧
          t.glen = BitVec.ofNat 7 (n + bitsProcessed i s) ∧ t.reg = s.reg)) ∧
    (∀ i : Instr, i = .nop ∨ classOf i = .opening → bitsProcessed i s = 0) ∧
    (∀ (gs : List Instr) (g : Bits), carriesGenerator gs g → (gs.map fun i => bitsProcessed i s).sum = g.length) ∧
    ∀ (ds : List Instr) (m : Bits), carriesData ds m →
      (ds.map fun i => bitsProcessed i s).sum = m.length ∧
      (s.mode = .enc → ((ds ++ [Instr.finish]).map fun i => bitsProcessed i s).sum = m.length + (n - 1)) ∧
      (s.mode = .det → ((ds ++ [Instr.finish]).map fun i => bitsProcessed i s).sum = m.length)

/-- R231: reset from any state, BUSY or not: every register at its reset value, STATUS 0 and PARAM NMAX.
Model's choice: log entries 1, 8, 23. -/
def Obligations.ResetFromAnyState : Prop :=
  ∀ (s : State) (rest : List HostAction), s.config.valid = true → s.host = .reset :: rest →
    step s = .next { s with phase := .idle, mode := .enc, gen := 0, glen := 0, len := 0, reg := 0, res := 0,
                            hasErr := false, cout := [], ecode := .none, inProgress := none, host := rest } ∧
    ∀ t : State, step s = .next t → statusWord t = 0 ∧ (readMap t 9).toNat = s.config.nmax

/-- R232: after reset every command but NOP, BEGE and BEGD raises IllegalCommand; BEGE and BEGD leave what reset leaves
except PHASE and MODE. -/
def Obligations.CommandsAfterReset : Prop :=
  ∀ s : State,
    (s.phase = .idle → ∀ i : Instr, classOf i = .generator ∨ classOf i = .data ∨ classOf i = .finish →
      exec i s = .next (errorEntry .illegalCommand s)) ∧
    (exec .bege s = .next { applyReset s with phase := .gen, mode := .enc, inProgress := s.inProgress }) ∧
    (exec .begd s = .next { applyReset s with phase := .gen, mode := .det, inProgress := s.inProgress })

/-- R230: every word in every phase gives exactly one next state (the first clause). The second clause, that the step of
every legal configuration does too, is the model's choice where the output stalls a command: R207 (b) lists that as an
outcome of its own, and the model makes it a step to the same state; with no command and no host action left the step is
to the same state too.
Model's choice: log entries 7, 15, 21. -/
def Obligations.EveryCommandGivesANextState : Prop :=
  (∀ (w : Word) (s : State), ∃ t : State, execWord w s = .next t) ∧
  ∀ s : State, s.config.valid = true → ∃ t : State, step s = .next t

/-- R207 (a): exactly the configurations with NMAX outside 2 to 64 are refused.
Model's choice: log entry 3. -/
def Obligations.BadConfigurationIsRefused : Prop :=
  ∀ s : State, step s = .refused .badConfig ↔ s.config.nmax < 2 ∨ 64 < s.config.nmax

/-- R22: the codes of PHASE, where the host reads it, its reset value, and who writes it: IDLE is reached by reset alone.
Model's choice: log entries 1, 8, 9. -/
def Obligations.PhaseWriters : Prop :=
  (phaseCode .idle = 0 ∧ phaseCode .gen = 1 ∧ phaseCode .data = 2 ∧ phaseCode .done = 3 ∧ phaseCode .error = 4) ∧
  (∀ s : State, (statusWord s).extractLsb' 0 3 = phaseCode s.phase ∧ ((statusWord s).extractLsb' 0 3).toNat ≤ 4) ∧
  State.reset.phase = .idle ∧
  (∀ (i : Instr) (s t : State), exec i s = .next t → t.phase ≠ s.phase →
    (t.phase = .gen ∧ (i = .bege ∨ i = .begd)) ∨
    (t.phase = .data ∧ s.phase = .gen ∧ (dataBits i).isSome = true) ∨
    (t.phase = .done ∧ i = .finish) ∨
    t.phase = .error) ∧
  ∀ s t : State, step s = .next t → t.phase = .idle → s.phase = .idle ∨ s.host.head? = some .reset

/-- R23: MODE is written by BEGE (0), BEGD (1) and reset, and by nothing else; the host reads it in STATUS[3].
Model's choice: log entries 1, 8. -/
def Obligations.ModeWriters : Prop :=
  (modeCode .enc = 0 ∧ modeCode .det = 1 ∧ State.reset.mode = .enc) ∧
  (∀ s : State, (statusWord s).extractLsb' 3 1 = modeCode s.mode) ∧
  (∀ s t : State, (exec .bege s = .next t → t.mode = .enc) ∧ (exec .begd s = .next t → t.mode = .det)) ∧
  (∀ (i : Instr) (s t : State), exec i s = .next t → i ≠ .bege → i ≠ .begd → t.mode = s.mode) ∧
  ∀ s t : State, step s = .next t → t.mode ≠ s.mode →
    s.host.head? = some .reset ∨ s.inProgress = some 0x10000000 ∨ s.inProgress = some 0x20000000

/-- The frame of every command: each register changes only by the commands the rules of 10_state.md name as its writers,
and the command in progress, the configuration and the host's side by none. -/
def Obligations.RegisterWriters : Prop :=
  ∀ (i : Instr) (s t : State), exec i s = .next t →
    sameOutside s t ∧
    (classOf i ≠ .opening →
      t.mode = s.mode ∧
      (t.gen ≠ s.gen ∨ t.glen ≠ s.glen → classOf i = .generator ∧ s.phase = .gen) ∧
      (t.len ≠ s.len → classOf i = .data) ∧
      (t.reg ≠ s.reg → classOf i = .data ∨ classOf i = .finish) ∧
      (t.res ≠ s.res → classOf i = .finish ∧ t.phase = .done) ∧
      (t.hasErr ≠ s.hasErr → classOf i = .finish ∧ t.phase = .done ∧ s.mode = .det) ∧
      (t.cout ≠ s.cout → s.mode = .enc ∧ (classOf i = .data ∨ classOf i = .finish)) ∧
      (t.ecode ≠ s.ecode → t.phase = .error ∧ s.phase ≠ .error))

/-- R37 with R6, R24 to R31, R144: every step keeps the invariant. -/
def Obligations.StepKeepsInvariant : Prop :=
  ∀ s t : State, Inv s → step s = .next t → Inv t

/-- The invariant holds at reset, in every legal configuration. -/
def Obligations.InvariantHoldsAtReset : Prop :=
  ∀ c : Config, c.valid = true → Inv (State.resetOf c)

/-- R6: no step changes the configuration.
Model's choice: log entry 3. -/
def Obligations.ConfigurationNeverChanges : Prop :=
  ∀ s t : State, step s = .next t → t.config = s.config

/-! ### Outside the block -/

/-- R5: InjectError flips exactly the bit at position p, counted from 1, or fails with PositionOutOfRange, which the
block never raises. -/
def Obligations.InjectErrorFlipsOneBit : Prop :=
  (∀ (cw : Bits) (p : Nat),
    (p < 1 ∨ p > cw.length → injectError cw p = .error .positionOutOfRange) ∧
    (1 ≤ p → p ≤ cw.length → ∃ cw' : Bits, injectError cw p = .ok cw' ∧ cw'.length = cw.length ∧
      cw'[p - 1]? = (cw[p - 1]?).map (fun b => !b) ∧ ∀ j, j ≠ p - 1 → cw'[j]? = cw[j]?)) ∧
  (∀ (w : Word) (s t : State), execWord w s = .next t → t.ecode = .positionOutOfRange →
    s.ecode = .positionOutOfRange) ∧
  injectError [true, false, true, true, true, false, false] 3 = .ok [true, false, false, true, true, false, false]

/-- R81: the pseudo-instructions. `gen` and `data` cut their string into 16-bit chunks from the left, the last chunk
holding the rest, and carry exactly its bits; `gtext` and `dtext` give one symbol command per character; `dbyte v` is
DBITS 8, v, which feeds the byte most significant bit first; `encode` and `detect` expand as listed; the worked
example's words. That a character from 0x80 to 0xFF has its Unicode code point as its code is not the spec's.
Model's choice: log entry 18. -/
def Obligations.PseudoInstructionsCarryTheirStrings : Prop :=
  let text (s : Bits) : Token := .text (s.map fun b => if b then '1' else '0')
  (∀ s : Bits, carriesGenerator (asmGen s) s ∧ carriesData (asmData s) s) ∧
  (asmGen [] = [] ∧ asmData [] = []) ∧
  (∀ s : Bits, s ≠ [] → s.length ≤ 16 →
    asmGen s = [.gbits s.length (BitVec.ofNat 16 (bitsVal s))] ∧
    asmData s = [.dbits s.length (BitVec.ofNat 16 (bitsVal s))]) ∧
  (∀ a s : Bits, a.length = 16 →
    asmGen (a ++ s) = .gbits 16 (BitVec.ofNat 16 (bitsVal a)) :: asmGen s ∧
    asmData (a ++ s) = .dbits 16 (BitVec.ofNat 16 (bitsVal a)) :: asmData s) ∧
  (∀ s : Bits,
    assembleForm ['g', 'e', 'n'] [text s] = .ok (asmGen s) ∧
    assembleForm ['d', 'a', 't', 'a'] [text s] = .ok (asmData s)) ∧
  (∀ t : List Char, (∀ c ∈ t, c.toNat < 256) →
    assembleForm ['g', 't', 'e', 'x', 't'] [.text t] = .ok (t.map fun c => .gchr (BitVec.ofNat 8 c.toNat)) ∧
    assembleForm ['d', 't', 'e', 'x', 't'] [.text t] = .ok (t.map fun c => .dchr (BitVec.ofNat 8 c.toNat))) ∧
  (∀ (w : List Char) (v : Nat), number w = some v → v ≤ 255 →
    assembleForm ['d', 'b', 'y', 't', 'e'] [.word w] = .ok [.dbits 8 (BitVec.ofNat 16 v)] ∧
    carriesData [.dbits 8 (BitVec.ofNat 16 v)] (bitsOf 8 v)) ∧
  (∀ g m : Bits,
    assembleForm ['e', 'n', 'c', 'o', 'd', 'e'] [text g, .comma, text m] =
      .ok (.bege :: asmGen g ++ asmData m ++ [.finish]) ∧
    assembleForm ['d', 'e', 't', 'e', 'c', 't'] [text g, .comma, text m] =
      .ok (.begd :: asmGen g ++ asmData m ++ [.finish])) ∧
  (asmEncode [true, true, false, true] [true, false, true, true]).map encode =
    [0x10000000, 0x3003000D, 0x5003000B, 0x70000000]

/-- R80: every line an assembler accepts gives well-formed commands; a count outside 1 to 16 or a value of 2^k or more is
refused.
Model's choice: log entry 18. -/
def Obligations.AssemblerAcceptsOnlyEncodable : Prop :=
  (∀ (line : List Char) (cs : List Instr), assembleLine line = .ok cs → cs.all Instr.wf = true) ∧
  ∀ (k v : Nat), k < 1 ∨ 16 < k ∨ 2 ^ k ≤ v →
    packedCommand .gbits k v = .error .noEncoding ∧ packedCommand .dbits k v = .error .noEncoding

/-! ### The host's other actions -/

/-- R55, R245, R213: a change of cw_ready changes the level of the pin and the script alone, with a command in progress
or without; with no command in progress a wait ends and changes the script alone, and with no host action left the block
holds its state.
Model's choice: log entries 1, 7, 11, 15, 23. -/
def Obligations.PinChangeAndIdleSteps : Prop :=
  ∀ s : State, s.config.valid = true →
    (∀ (level : Bool) (rest : List HostAction), s.host = .setCwReady level :: rest →
      step s = .next { s with cwReady := level, host := rest }) ∧
    (∀ rest : List HostAction, s.inProgress = none → s.host = .await :: rest →
      step s = .next { s with host := rest }) ∧
    (s.inProgress = none → s.host = [] → step s = .next s)
end

