-- ==== Sys2Proof/Laws/Operands.lean ====
section
/-! SUPPORT. Laws of the operand forms and of the division datapath (00_scope.md R10, 40_polynomial_register.md R100 to R102). -/

namespace Sys2Proof.Machine

@[simp] theorem bitsOf_zero (v : Nat) : bitsOf 0 v = [] := rfl

theorem bitsOf_succ (k v : Nat) : bitsOf (k + 1) v = v.testBit k :: bitsOf k v := rfl

@[simp] theorem bitsOf_length (k v : Nat) : (bitsOf k v).length = k := by
  induction k with
  | zero => rfl
  | succ k ih => simp [bitsOf, ih]

@[simp] theorem payloadBits_length (k : Nat) (v : BitVec 16) : (payloadBits k v).length = k :=
  bitsOf_length k _

@[simp] theorem bitsVal_nil : bitsVal [] = 0 := rfl

theorem bitsVal_append_singleton (s : Bits) (b : Bool) : bitsVal (s ++ [b]) = 2 * bitsVal s + b.toNat := by
  simp [bitsVal]

theorem bitsVal_foldl (s : Bits) (n : Nat) :
    s.foldl (fun acc b => 2 * acc + b.toNat) n = n * 2 ^ s.length + bitsVal s := by
  induction s generalizing n with
  | nil => simp [bitsVal]
  | cons b bs ih =>
    simp only [List.foldl_cons, List.length_cons, bitsVal]
    rw [ih, ih (2 * 0 + b.toNat), pow_succ]
    ring

theorem bitsVal_cons (b : Bool) (s : Bits) : bitsVal (b :: s) = b.toNat * 2 ^ s.length + bitsVal s := by
  have h := bitsVal_foldl s (2 * 0 + b.toNat)
  simpa [bitsVal] using h

theorem bitsVal_lt (s : Bits) : bitsVal s < 2 ^ s.length := by
  induction s with
  | nil => simp
  | cons b bs ih =>
    rw [bitsVal_cons, List.length_cons, pow_succ]
    cases b <;> simp <;> omega

/-- `val(bits_k(v)) = v mod 2^k` (R10). -/
theorem bitsVal_bitsOf (k v : Nat) : bitsVal (bitsOf k v) = v % 2 ^ k := by
  induction k with
  | zero => simp [Nat.mod_one]
  | succ k ih =>
    rw [bitsOf_succ, bitsVal_cons, bitsOf_length, ih, Nat.mod_pow_succ, Nat.toNat_testBit]
    ring

@[simp] theorem zeros_length (k : Nat) : (zeros k).length = k := by simp [zeros]

theorem zeros_succ (k : Nat) : zeros (k + 1) = false :: zeros k := rfl

theorem sat32_le (x : Nat) : sat32 x ≤ 2 ^ 32 - 1 := Nat.min_le_right _ _

/-- The two binary symbols (30_encoding.md R75). -/
theorem symbolBit_eq_some {c : BitVec 8} {b : Bool} :
    symbolBit c = some b ↔ (c = 0x30 ∧ b = false) ∨ (c = 0x31 ∧ b = true) := by
  unfold symbolBit
  split
  · subst_vars; simp [eq_comm]
  · split
    · subst_vars; simp [eq_comm]
    · simp_all

/-- `r mod 2^n` (R10). -/
theorem lowBits_toNat (n : Nat) (r : Reg64) : (lowBits n r).toNat = r.toNat % 2 ^ n := by
  unfold lowBits
  simp only [BitVec.toNat_setWidth]
  exact Nat.mod_eq_of_lt (lt_of_le_of_lt (Nat.mod_le _ _) r.isLt)

theorem shiftIn_toNat (r : Reg64) (b : Bool) : (shiftIn r b).toNat = (2 * r.toNat + b.toNat) % 2 ^ 64 := by
  have hb : ((BitVec.ofBool b).setWidth 64).toNat = b.toNat := by cases b <;> rfl
  have hr : (r <<< 1).toNat = 2 * (r.toNat % 2 ^ 63) := by
    rw [BitVec.toNat_shiftLeft, Nat.shiftLeft_eq]; omega
  have hor : 2 * (r.toNat % 2 ^ 63) ||| b.toNat = 2 * (r.toNat % 2 ^ 63) + b.toNat := by
    have := Nat.two_pow_add_eq_or_of_lt (i := 1) (b := b.toNat) (by cases b <;> decide) (r.toNat % 2 ^ 63)
    simpa using this.symm
  rw [shiftIn, BitVec.toNat_or, hb, hr, hor]
  have : b.toNat < 2 := by cases b <;> decide
  omega

@[simp] theorem divSteps_nil (r g : Reg64) (n : Nat) : divSteps r g n [] = r := rfl

@[simp] theorem divSteps_cons (r g : Reg64) (n : Nat) (b : Bool) (bs : Bits) :
    divSteps r g n (b :: bs) = divSteps (divStep r g n b) g n bs := rfl

theorem divSteps_append (r g : Reg64) (n : Nat) (s t : Bits) :
    divSteps r g n (s ++ t) = divSteps (divSteps r g n s) g n t := by
  simp [divSteps]

theorem divStep_lt (r g : Reg64) (n : Nat) (b : Bool) : (divStep r g n b).toNat < 2 ^ n := by
  rw [divStep, lowBits_toNat]
  exact Nat.mod_lt _ (Nat.two_pow_pos n)

end Sys2Proof.Machine
end

