-- ==== Sys2Proof/Laws/Assembler.lean ====
section
/-! SUPPORT. Laws of the assembler: the 16-bit chunks of a bit string and the strings of `gen` and `data` (30_encoding.md R81). -/

namespace Sys2Proof.Machine

@[simp] theorem chunks16_nil (n : Nat) : chunks16 n [] = [] := by cases n <;> rfl

/-- The bound on the number of chunks does not matter once it is the length of the string. -/
theorem chunks16_fuel (n : Nat) (s : Bits) (h : s.length ≤ n) : chunks16 n s = chunks16 s.length s := by
  induction n using Nat.strong_induction_on generalizing s with
  | _ n ih =>
    cases s with
    | nil => simp
    | cons b bs =>
      cases n with
      | zero => simp at h
      | succ m =>
        simp only [List.length_cons] at h
        have hd : ((b :: bs).drop 16).length ≤ bs.length := by simp
        simp only [chunks16, List.length_cons]
        rw [ih m (by omega) _ (by omega), ih bs.length (by omega) _ hd]

/-- A string of 1 to 16 bits is one chunk. -/
theorem chunks16_short (s : Bits) (hs : s ≠ []) (h : s.length ≤ 16) : chunks16 s.length s = [s] := by
  cases s with
  | nil => exact absurd rfl hs
  | cons b bs =>
    rw [List.length_cons, chunks16, List.take_of_length_le h, List.drop_eq_nil_of_le h, chunks16_nil]

/-- The first 16 bits are a chunk, and the rest is cut the same way. -/
theorem chunks16_append (a s : Bits) (ha : a.length = 16) :
    chunks16 (a ++ s).length (a ++ s) = a :: chunks16 s.length s := by
  cases a with
  | nil => simp at ha
  | cons b bs =>
    rw [List.cons_append, List.length_cons, chunks16, ← List.cons_append, List.take_left' ha, List.drop_left' ha,
      chunks16_fuel _ s (by simp)]

/-- The chunks, joined, are the string. -/
theorem chunks16_flatten (s : Bits) : (chunks16 s.length s).flatten = s := by
  generalize hn : s.length = n
  induction n using Nat.strong_induction_on generalizing s with
  | _ n ih =>
    by_cases hl : s.length ≤ 16
    · by_cases h0 : s = []
      · simp [h0]
      · rw [← hn, chunks16_short s h0 hl]; simp
    · have ha : (s.take 16).length = 16 := by simp; omega
      have h := chunks16_append (s.take 16) (s.drop 16) ha
      rw [List.take_append_drop] at h
      rw [← hn, h, List.flatten_cons, ih _ (by simp; omega) (s.drop 16) rfl, List.take_append_drop]

/-- The characters of a bit string are read back as its bits. -/
theorem bitString_text (s : Bits) : bitString (s.map fun b => if b then '1' else '0') = some s := by
  induction s with
  | nil => rfl
  | cons b bs ih => cases b <;> simp [bitString, ih, bitChar]

end Sys2Proof.Machine
end

