-- ==== Sys2Proof/Laws/State.lean ====
section
/-! SUPPORT. For each named update of the state, what each field reads after it: one lemma per field per update. -/

namespace Sys2Proof.Machine

variable (s : State)

/-! `errorEntry` -/

@[simp] theorem errorEntry_phase (e : ErrorCode) : (errorEntry e s).phase = .error := rfl
@[simp] theorem errorEntry_mode (e : ErrorCode) : (errorEntry e s).mode = s.mode := rfl
@[simp] theorem errorEntry_gen (e : ErrorCode) : (errorEntry e s).gen = s.gen := rfl
@[simp] theorem errorEntry_glen (e : ErrorCode) : (errorEntry e s).glen = s.glen := rfl
@[simp] theorem errorEntry_len (e : ErrorCode) : (errorEntry e s).len = s.len := rfl
@[simp] theorem errorEntry_reg (e : ErrorCode) : (errorEntry e s).reg = s.reg := rfl
@[simp] theorem errorEntry_res (e : ErrorCode) : (errorEntry e s).res = s.res := rfl
@[simp] theorem errorEntry_hasErr (e : ErrorCode) : (errorEntry e s).hasErr = s.hasErr := rfl
@[simp] theorem errorEntry_cout (e : ErrorCode) : (errorEntry e s).cout = s.cout := rfl
@[simp] theorem errorEntry_ecode (e : ErrorCode) : (errorEntry e s).ecode = e := rfl
@[simp] theorem errorEntry_inProgress (e : ErrorCode) : (errorEntry e s).inProgress = s.inProgress := rfl
@[simp] theorem errorEntry_config (e : ErrorCode) : (errorEntry e s).config = s.config := rfl
@[simp] theorem errorEntry_host (e : ErrorCode) : (errorEntry e s).host = s.host := rfl
@[simp] theorem errorEntry_cwReady (e : ErrorCode) : (errorEntry e s).cwReady = s.cwReady := rfl
@[simp] theorem errorEntry_rdTrace (e : ErrorCode) : (errorEntry e s).rdTrace = s.rdTrace := rfl
@[simp] theorem errorEntry_draws (e : ErrorCode) : (errorEntry e s).draws = s.draws := rfl

/-! `openOperation` -/

@[simp] theorem openOperation_phase (m : Mode) : (openOperation m s).phase = .gen := rfl
@[simp] theorem openOperation_mode (m : Mode) : (openOperation m s).mode = m := rfl
@[simp] theorem openOperation_gen (m : Mode) : (openOperation m s).gen = 0 := rfl
@[simp] theorem openOperation_glen (m : Mode) : (openOperation m s).glen = 0 := rfl
@[simp] theorem openOperation_len (m : Mode) : (openOperation m s).len = 0 := rfl
@[simp] theorem openOperation_reg (m : Mode) : (openOperation m s).reg = 0 := rfl
@[simp] theorem openOperation_res (m : Mode) : (openOperation m s).res = 0 := rfl
@[simp] theorem openOperation_hasErr (m : Mode) : (openOperation m s).hasErr = false := rfl
@[simp] theorem openOperation_cout (m : Mode) : (openOperation m s).cout = [] := rfl
@[simp] theorem openOperation_ecode (m : Mode) : (openOperation m s).ecode = .none := rfl
@[simp] theorem openOperation_inProgress (m : Mode) : (openOperation m s).inProgress = s.inProgress := rfl
@[simp] theorem openOperation_config (m : Mode) : (openOperation m s).config = s.config := rfl
@[simp] theorem openOperation_host (m : Mode) : (openOperation m s).host = s.host := rfl
@[simp] theorem openOperation_cwReady (m : Mode) : (openOperation m s).cwReady = s.cwReady := rfl
@[simp] theorem openOperation_rdTrace (m : Mode) : (openOperation m s).rdTrace = s.rdTrace := rfl
@[simp] theorem openOperation_draws (m : Mode) : (openOperation m s).draws = s.draws := rfl

/-! `appendGenerator` -/

@[simp] theorem appendGenerator_phase (bs : Bits) : (appendGenerator bs s).phase = s.phase := rfl
@[simp] theorem appendGenerator_mode (bs : Bits) : (appendGenerator bs s).mode = s.mode := rfl
@[simp] theorem appendGenerator_gen (bs : Bits) : (appendGenerator bs s).gen = bs.foldl shiftIn s.gen := rfl
@[simp] theorem appendGenerator_glen (bs : Bits) : (appendGenerator bs s).glen = s.glen + BitVec.ofNat 7 bs.length := rfl
@[simp] theorem appendGenerator_len (bs : Bits) : (appendGenerator bs s).len = s.len := rfl
@[simp] theorem appendGenerator_reg (bs : Bits) : (appendGenerator bs s).reg = s.reg := rfl
@[simp] theorem appendGenerator_res (bs : Bits) : (appendGenerator bs s).res = s.res := rfl
@[simp] theorem appendGenerator_hasErr (bs : Bits) : (appendGenerator bs s).hasErr = s.hasErr := rfl
@[simp] theorem appendGenerator_cout (bs : Bits) : (appendGenerator bs s).cout = s.cout := rfl
@[simp] theorem appendGenerator_ecode (bs : Bits) : (appendGenerator bs s).ecode = s.ecode := rfl
@[simp] theorem appendGenerator_inProgress (bs : Bits) : (appendGenerator bs s).inProgress = s.inProgress := rfl
@[simp] theorem appendGenerator_config (bs : Bits) : (appendGenerator bs s).config = s.config := rfl
@[simp] theorem appendGenerator_host (bs : Bits) : (appendGenerator bs s).host = s.host := rfl
@[simp] theorem appendGenerator_cwReady (bs : Bits) : (appendGenerator bs s).cwReady = s.cwReady := rfl
@[simp] theorem appendGenerator_rdTrace (bs : Bits) : (appendGenerator bs s).rdTrace = s.rdTrace := rfl
@[simp] theorem appendGenerator_draws (bs : Bits) : (appendGenerator bs s).draws = s.draws := rfl

/-! `enterData` -/

@[simp] theorem enterData_phase : (enterData s).phase = .data := rfl
@[simp] theorem enterData_mode : (enterData s).mode = s.mode := rfl
@[simp] theorem enterData_gen : (enterData s).gen = s.gen := rfl
@[simp] theorem enterData_glen : (enterData s).glen = s.glen := rfl
@[simp] theorem enterData_len : (enterData s).len = s.len := rfl
@[simp] theorem enterData_reg : (enterData s).reg = s.reg := rfl
@[simp] theorem enterData_res : (enterData s).res = s.res := rfl
@[simp] theorem enterData_hasErr : (enterData s).hasErr = s.hasErr := rfl
@[simp] theorem enterData_cout : (enterData s).cout = s.cout := rfl
@[simp] theorem enterData_ecode : (enterData s).ecode = s.ecode := rfl
@[simp] theorem enterData_inProgress : (enterData s).inProgress = s.inProgress := rfl
@[simp] theorem enterData_config : (enterData s).config = s.config := rfl
@[simp] theorem enterData_host : (enterData s).host = s.host := rfl
@[simp] theorem enterData_cwReady : (enterData s).cwReady = s.cwReady := rfl
@[simp] theorem enterData_rdTrace : (enterData s).rdTrace = s.rdTrace := rfl
@[simp] theorem enterData_draws : (enterData s).draws = s.draws := rfl

/-! `emit` -/

@[simp] theorem emit_phase (bs : Bits) : (emit bs s).phase = s.phase := rfl
@[simp] theorem emit_mode (bs : Bits) : (emit bs s).mode = s.mode := rfl
@[simp] theorem emit_gen (bs : Bits) : (emit bs s).gen = s.gen := rfl
@[simp] theorem emit_glen (bs : Bits) : (emit bs s).glen = s.glen := rfl
@[simp] theorem emit_len (bs : Bits) : (emit bs s).len = s.len := rfl
@[simp] theorem emit_reg (bs : Bits) : (emit bs s).reg = s.reg := rfl
@[simp] theorem emit_res (bs : Bits) : (emit bs s).res = s.res := rfl
@[simp] theorem emit_hasErr (bs : Bits) : (emit bs s).hasErr = s.hasErr := rfl
@[simp] theorem emit_cout (bs : Bits) : (emit bs s).cout = s.cout ++ bs := rfl
@[simp] theorem emit_ecode (bs : Bits) : (emit bs s).ecode = s.ecode := rfl
@[simp] theorem emit_inProgress (bs : Bits) : (emit bs s).inProgress = s.inProgress := rfl
@[simp] theorem emit_config (bs : Bits) : (emit bs s).config = s.config := rfl
@[simp] theorem emit_host (bs : Bits) : (emit bs s).host = s.host := rfl
@[simp] theorem emit_cwReady (bs : Bits) : (emit bs s).cwReady = s.cwReady := rfl
@[simp] theorem emit_rdTrace (bs : Bits) : (emit bs s).rdTrace = s.rdTrace := rfl
@[simp] theorem emit_draws (bs : Bits) : (emit bs s).draws = s.draws := rfl

/-! `feedBit` -/

@[simp] theorem feedBit_phase (b : Bool) : (feedBit s b).phase = s.phase := rfl
@[simp] theorem feedBit_mode (b : Bool) : (feedBit s b).mode = s.mode := rfl
@[simp] theorem feedBit_gen (b : Bool) : (feedBit s b).gen = s.gen := rfl
@[simp] theorem feedBit_glen (b : Bool) : (feedBit s b).glen = s.glen := rfl
@[simp] theorem feedBit_len (b : Bool) : (feedBit s b).len = BitVec.ofNat 32 (sat32 (s.len.toNat + 1)) := rfl
@[simp] theorem feedBit_reg (b : Bool) : (feedBit s b).reg = divStep s.reg s.gen s.glen.toNat b := rfl
@[simp] theorem feedBit_res (b : Bool) : (feedBit s b).res = s.res := rfl
@[simp] theorem feedBit_hasErr (b : Bool) : (feedBit s b).hasErr = s.hasErr := rfl
@[simp] theorem feedBit_ecode (b : Bool) : (feedBit s b).ecode = s.ecode := rfl
@[simp] theorem feedBit_inProgress (b : Bool) : (feedBit s b).inProgress = s.inProgress := rfl
@[simp] theorem feedBit_config (b : Bool) : (feedBit s b).config = s.config := rfl
@[simp] theorem feedBit_host (b : Bool) : (feedBit s b).host = s.host := rfl
@[simp] theorem feedBit_cwReady (b : Bool) : (feedBit s b).cwReady = s.cwReady := rfl
@[simp] theorem feedBit_rdTrace (b : Bool) : (feedBit s b).rdTrace = s.rdTrace := rfl
@[simp] theorem feedBit_draws (b : Bool) : (feedBit s b).draws = s.draws := rfl

/-! `storeResult` -/

@[simp] theorem storeResult_phase (r : Reg64) : (storeResult r s).phase = .done := rfl
@[simp] theorem storeResult_mode (r : Reg64) : (storeResult r s).mode = s.mode := rfl
@[simp] theorem storeResult_gen (r : Reg64) : (storeResult r s).gen = s.gen := rfl
@[simp] theorem storeResult_glen (r : Reg64) : (storeResult r s).glen = s.glen := rfl
@[simp] theorem storeResult_len (r : Reg64) : (storeResult r s).len = s.len := rfl
@[simp] theorem storeResult_reg (r : Reg64) : (storeResult r s).reg = r := rfl
@[simp] theorem storeResult_res (r : Reg64) : (storeResult r s).res = lowBits (s.glen.toNat - 1) r := rfl
@[simp] theorem storeResult_hasErr (r : Reg64) : (storeResult r s).hasErr = s.hasErr := rfl
@[simp] theorem storeResult_cout (r : Reg64) : (storeResult r s).cout = s.cout := rfl
@[simp] theorem storeResult_ecode (r : Reg64) : (storeResult r s).ecode = s.ecode := rfl
@[simp] theorem storeResult_inProgress (r : Reg64) : (storeResult r s).inProgress = s.inProgress := rfl
@[simp] theorem storeResult_config (r : Reg64) : (storeResult r s).config = s.config := rfl
@[simp] theorem storeResult_host (r : Reg64) : (storeResult r s).host = s.host := rfl
@[simp] theorem storeResult_cwReady (r : Reg64) : (storeResult r s).cwReady = s.cwReady := rfl
@[simp] theorem storeResult_rdTrace (r : Reg64) : (storeResult r s).rdTrace = s.rdTrace := rfl
@[simp] theorem storeResult_draws (r : Reg64) : (storeResult r s).draws = s.draws := rfl

/-! `writeHasErr` -/

@[simp] theorem writeHasErr_phase : (writeHasErr s).phase = s.phase := rfl
@[simp] theorem writeHasErr_mode : (writeHasErr s).mode = s.mode := rfl
@[simp] theorem writeHasErr_gen : (writeHasErr s).gen = s.gen := rfl
@[simp] theorem writeHasErr_glen : (writeHasErr s).glen = s.glen := rfl
@[simp] theorem writeHasErr_len : (writeHasErr s).len = s.len := rfl
@[simp] theorem writeHasErr_reg : (writeHasErr s).reg = s.reg := rfl
@[simp] theorem writeHasErr_res : (writeHasErr s).res = s.res := rfl
@[simp] theorem writeHasErr_hasErr : (writeHasErr s).hasErr = (s.res != 0) := rfl
@[simp] theorem writeHasErr_cout : (writeHasErr s).cout = s.cout := rfl
@[simp] theorem writeHasErr_ecode : (writeHasErr s).ecode = s.ecode := rfl
@[simp] theorem writeHasErr_inProgress : (writeHasErr s).inProgress = s.inProgress := rfl
@[simp] theorem writeHasErr_config : (writeHasErr s).config = s.config := rfl
@[simp] theorem writeHasErr_host : (writeHasErr s).host = s.host := rfl
@[simp] theorem writeHasErr_cwReady : (writeHasErr s).cwReady = s.cwReady := rfl
@[simp] theorem writeHasErr_rdTrace : (writeHasErr s).rdTrace = s.rdTrace := rfl
@[simp] theorem writeHasErr_draws : (writeHasErr s).draws = s.draws := rfl

/-! `acceptWord` -/

@[simp] theorem acceptWord_phase (w : Word) : (acceptWord w s).phase = s.phase := rfl
@[simp] theorem acceptWord_mode (w : Word) : (acceptWord w s).mode = s.mode := rfl
@[simp] theorem acceptWord_gen (w : Word) : (acceptWord w s).gen = s.gen := rfl
@[simp] theorem acceptWord_glen (w : Word) : (acceptWord w s).glen = s.glen := rfl
@[simp] theorem acceptWord_len (w : Word) : (acceptWord w s).len = s.len := rfl
@[simp] theorem acceptWord_reg (w : Word) : (acceptWord w s).reg = s.reg := rfl
@[simp] theorem acceptWord_res (w : Word) : (acceptWord w s).res = s.res := rfl
@[simp] theorem acceptWord_hasErr (w : Word) : (acceptWord w s).hasErr = s.hasErr := rfl
@[simp] theorem acceptWord_cout (w : Word) : (acceptWord w s).cout = s.cout := rfl
@[simp] theorem acceptWord_ecode (w : Word) : (acceptWord w s).ecode = s.ecode := rfl
@[simp] theorem acceptWord_inProgress (w : Word) : (acceptWord w s).inProgress = some w := rfl
@[simp] theorem acceptWord_config (w : Word) : (acceptWord w s).config = s.config := rfl
@[simp] theorem acceptWord_host (w : Word) : (acceptWord w s).host = s.host := rfl
@[simp] theorem acceptWord_cwReady (w : Word) : (acceptWord w s).cwReady = s.cwReady := rfl
@[simp] theorem acceptWord_rdTrace (w : Word) : (acceptWord w s).rdTrace = s.rdTrace := rfl
@[simp] theorem acceptWord_draws (w : Word) : (acceptWord w s).draws = s.draws := rfl

/-! `retire` -/

@[simp] theorem retire_phase : (retire s).phase = s.phase := rfl
@[simp] theorem retire_mode : (retire s).mode = s.mode := rfl
@[simp] theorem retire_gen : (retire s).gen = s.gen := rfl
@[simp] theorem retire_glen : (retire s).glen = s.glen := rfl
@[simp] theorem retire_len : (retire s).len = s.len := rfl
@[simp] theorem retire_reg : (retire s).reg = s.reg := rfl
@[simp] theorem retire_res : (retire s).res = s.res := rfl
@[simp] theorem retire_hasErr : (retire s).hasErr = s.hasErr := rfl
@[simp] theorem retire_cout : (retire s).cout = s.cout := rfl
@[simp] theorem retire_ecode : (retire s).ecode = s.ecode := rfl
@[simp] theorem retire_inProgress : (retire s).inProgress = none := rfl
@[simp] theorem retire_config : (retire s).config = s.config := rfl
@[simp] theorem retire_host : (retire s).host = s.host := rfl
@[simp] theorem retire_cwReady : (retire s).cwReady = s.cwReady := rfl
@[simp] theorem retire_rdTrace : (retire s).rdTrace = s.rdTrace := rfl
@[simp] theorem retire_draws : (retire s).draws = s.draws := rfl

/-! `dropAction` -/

@[simp] theorem dropAction_phase : (dropAction s).phase = s.phase := rfl
@[simp] theorem dropAction_mode : (dropAction s).mode = s.mode := rfl
@[simp] theorem dropAction_gen : (dropAction s).gen = s.gen := rfl
@[simp] theorem dropAction_glen : (dropAction s).glen = s.glen := rfl
@[simp] theorem dropAction_len : (dropAction s).len = s.len := rfl
@[simp] theorem dropAction_reg : (dropAction s).reg = s.reg := rfl
@[simp] theorem dropAction_res : (dropAction s).res = s.res := rfl
@[simp] theorem dropAction_hasErr : (dropAction s).hasErr = s.hasErr := rfl
@[simp] theorem dropAction_cout : (dropAction s).cout = s.cout := rfl
@[simp] theorem dropAction_ecode : (dropAction s).ecode = s.ecode := rfl
@[simp] theorem dropAction_inProgress : (dropAction s).inProgress = s.inProgress := rfl
@[simp] theorem dropAction_config : (dropAction s).config = s.config := rfl
@[simp] theorem dropAction_host : (dropAction s).host = s.host.tail := rfl
@[simp] theorem dropAction_cwReady : (dropAction s).cwReady = s.cwReady := rfl
@[simp] theorem dropAction_rdTrace : (dropAction s).rdTrace = s.rdTrace := rfl
@[simp] theorem dropAction_draws : (dropAction s).draws = s.draws := rfl

/-! `driveCwReady` -/

@[simp] theorem driveCwReady_phase (l : Bool) : (driveCwReady l s).phase = s.phase := rfl
@[simp] theorem driveCwReady_mode (l : Bool) : (driveCwReady l s).mode = s.mode := rfl
@[simp] theorem driveCwReady_gen (l : Bool) : (driveCwReady l s).gen = s.gen := rfl
@[simp] theorem driveCwReady_glen (l : Bool) : (driveCwReady l s).glen = s.glen := rfl
@[simp] theorem driveCwReady_len (l : Bool) : (driveCwReady l s).len = s.len := rfl
@[simp] theorem driveCwReady_reg (l : Bool) : (driveCwReady l s).reg = s.reg := rfl
@[simp] theorem driveCwReady_res (l : Bool) : (driveCwReady l s).res = s.res := rfl
@[simp] theorem driveCwReady_hasErr (l : Bool) : (driveCwReady l s).hasErr = s.hasErr := rfl
@[simp] theorem driveCwReady_cout (l : Bool) : (driveCwReady l s).cout = s.cout := rfl
@[simp] theorem driveCwReady_ecode (l : Bool) : (driveCwReady l s).ecode = s.ecode := rfl
@[simp] theorem driveCwReady_inProgress (l : Bool) : (driveCwReady l s).inProgress = s.inProgress := rfl
@[simp] theorem driveCwReady_config (l : Bool) : (driveCwReady l s).config = s.config := rfl
@[simp] theorem driveCwReady_host (l : Bool) : (driveCwReady l s).host = s.host := rfl
@[simp] theorem driveCwReady_cwReady (l : Bool) : (driveCwReady l s).cwReady = l := rfl
@[simp] theorem driveCwReady_rdTrace (l : Bool) : (driveCwReady l s).rdTrace = s.rdTrace := rfl
@[simp] theorem driveCwReady_draws (l : Bool) : (driveCwReady l s).draws = s.draws := rfl

/-! `serveRead` -/

@[simp] theorem serveRead_phase (a : BitVec 4) : (serveRead a s).phase = s.phase := rfl
@[simp] theorem serveRead_mode (a : BitVec 4) : (serveRead a s).mode = s.mode := rfl
@[simp] theorem serveRead_gen (a : BitVec 4) : (serveRead a s).gen = s.gen := rfl
@[simp] theorem serveRead_glen (a : BitVec 4) : (serveRead a s).glen = s.glen := rfl
@[simp] theorem serveRead_len (a : BitVec 4) : (serveRead a s).len = s.len := rfl
@[simp] theorem serveRead_reg (a : BitVec 4) : (serveRead a s).reg = s.reg := rfl
@[simp] theorem serveRead_res (a : BitVec 4) : (serveRead a s).res = s.res := rfl
@[simp] theorem serveRead_hasErr (a : BitVec 4) : (serveRead a s).hasErr = s.hasErr := rfl
@[simp] theorem serveRead_cout (a : BitVec 4) : (serveRead a s).cout = s.cout := rfl
@[simp] theorem serveRead_ecode (a : BitVec 4) : (serveRead a s).ecode = s.ecode := rfl
@[simp] theorem serveRead_inProgress (a : BitVec 4) : (serveRead a s).inProgress = s.inProgress := rfl
@[simp] theorem serveRead_config (a : BitVec 4) : (serveRead a s).config = s.config := rfl
@[simp] theorem serveRead_host (a : BitVec 4) : (serveRead a s).host = s.host := rfl
@[simp] theorem serveRead_cwReady (a : BitVec 4) : (serveRead a s).cwReady = s.cwReady := rfl
@[simp] theorem serveRead_rdTrace (a : BitVec 4) : (serveRead a s).rdTrace = s.rdTrace ++ [{ addr := a, data := portWord s a }] := rfl
@[simp] theorem serveRead_draws (a : BitVec 4) : (serveRead a s).draws = if readIsOpen s a then s.draws + 1 else s.draws := rfl

/-! `applyReset` -/

@[simp] theorem applyReset_phase : (applyReset s).phase = .idle := rfl
@[simp] theorem applyReset_mode : (applyReset s).mode = .enc := rfl
@[simp] theorem applyReset_gen : (applyReset s).gen = 0 := rfl
@[simp] theorem applyReset_glen : (applyReset s).glen = 0 := rfl
@[simp] theorem applyReset_len : (applyReset s).len = 0 := rfl
@[simp] theorem applyReset_reg : (applyReset s).reg = 0 := rfl
@[simp] theorem applyReset_res : (applyReset s).res = 0 := rfl
@[simp] theorem applyReset_hasErr : (applyReset s).hasErr = false := rfl
@[simp] theorem applyReset_cout : (applyReset s).cout = [] := rfl
@[simp] theorem applyReset_ecode : (applyReset s).ecode = .none := rfl
@[simp] theorem applyReset_inProgress : (applyReset s).inProgress = none := rfl
@[simp] theorem applyReset_config : (applyReset s).config = s.config := rfl
@[simp] theorem applyReset_host : (applyReset s).host = s.host := rfl
@[simp] theorem applyReset_cwReady : (applyReset s).cwReady = s.cwReady := rfl
@[simp] theorem applyReset_rdTrace : (applyReset s).rdTrace = s.rdTrace := rfl
@[simp] theorem applyReset_draws : (applyReset s).draws = s.draws := rfl

/-! `placeWord` -/

@[simp] theorem placeWord_phase (w : Word) : (placeWord w s).phase = s.phase := rfl
@[simp] theorem placeWord_mode (w : Word) : (placeWord w s).mode = s.mode := rfl
@[simp] theorem placeWord_gen (w : Word) : (placeWord w s).gen = s.gen := rfl
@[simp] theorem placeWord_glen (w : Word) : (placeWord w s).glen = s.glen := rfl
@[simp] theorem placeWord_len (w : Word) : (placeWord w s).len = s.len := rfl
@[simp] theorem placeWord_reg (w : Word) : (placeWord w s).reg = s.reg := rfl
@[simp] theorem placeWord_res (w : Word) : (placeWord w s).res = s.res := rfl
@[simp] theorem placeWord_hasErr (w : Word) : (placeWord w s).hasErr = s.hasErr := rfl
@[simp] theorem placeWord_cout (w : Word) : (placeWord w s).cout = s.cout := rfl
@[simp] theorem placeWord_ecode (w : Word) : (placeWord w s).ecode = s.ecode := rfl
@[simp] theorem placeWord_inProgress (w : Word) : (placeWord w s).inProgress = some w := rfl
@[simp] theorem placeWord_config (w : Word) : (placeWord w s).config = s.config := rfl
@[simp] theorem placeWord_host (w : Word) : (placeWord w s).host = .await :: s.host := rfl
@[simp] theorem placeWord_cwReady (w : Word) : (placeWord w s).cwReady = true := rfl
@[simp] theorem placeWord_rdTrace (w : Word) : (placeWord w s).rdTrace = s.rdTrace := rfl
@[simp] theorem placeWord_draws (w : Word) : (placeWord w s).draws = s.draws := rfl

theorem feedBit_cout_enc (b : Bool) (h : s.mode = .enc) : (feedBit s b).cout = s.cout ++ [b] := by simp [feedBit, h]
theorem feedBit_cout_det (b : Bool) (h : s.mode = .det) : (feedBit s b).cout = s.cout := by simp [feedBit, h]

end Sys2Proof.Machine
end

