-- ==== Sys2Proof/Laws/Ops.lean ====
section
/-! SUPPORT. What each shared operation can do, said once: the command frame, error entry, loading, validation and feeding. -/

namespace Sys2Proof.Machine

theorem perform_yes {c : CommandClass} {s : State} (body : State → Effect) (h : legality c s.phase = .yes) :
    perform c body s = .next (settle s (body s)) := by simp [perform, h]

theorem perform_no {c : CommandClass} {s : State} (body : State → Effect) (h : legality c s.phase = .no) :
    perform c body s = .next (errorEntry .illegalCommand s) := by simp [perform, h]

theorem perform_ignored {c : CommandClass} {s : State} (body : State → Effect) (h : legality c s.phase = .ignored) :
    perform c body s = .next s := by simp [perform, h]

/-- Everything a command can do (41_control_and_generator.md R127). -/
theorem perform_cases {c : CommandClass} {body : State → Effect} {s t : State} (h : perform c body s = .next t) :
    (legality c s.phase = .ignored ∧ t = s) ∨
    (legality c s.phase = .no ∧ t = errorEntry .illegalCommand s) ∨
    (∃ e, legality c s.phase = .yes ∧ body s = .error e ∧ t = errorEntry e s) ∨
    (legality c s.phase = .yes ∧ body s = .ok t) := by
  cases hl : legality c s.phase with
  | ignored => rw [perform_ignored body hl] at h; cases h; exact .inl ⟨rfl, rfl⟩
  | no => rw [perform_no body hl] at h; cases h; exact .inr (.inl ⟨rfl, rfl⟩)
  | yes =>
    rw [perform_yes body hl] at h
    cases hb : body s with
    | error e => rw [hb] at h; cases h; exact .inr (.inr (.inl ⟨e, rfl, rfl, rfl⟩))
    | ok u => rw [hb] at h; cases h; exact .inr (.inr (.inr ⟨rfl, rfl⟩))

/-- A command always answers a next state (70_reset_and_hazards.md R230). -/
theorem perform_next (c : CommandClass) (body : State → Effect) (s : State) : ∃ t, perform c body s = .next t := by
  cases hl : legality c s.phase with
  | ignored => exact ⟨_, perform_ignored body hl⟩
  | no => exact ⟨_, perform_no body hl⟩
  | yes => exact ⟨_, perform_yes body hl⟩

/-- Everything loading can do (R123). -/
theorem loadGenerator_cases (bs : Bits) (s : State) :
    (s.config.nmax < s.glen.toNat + bs.length ∧ loadGenerator bs s = .error .capacityExceeded) ∨
    (s.glen.toNat + bs.length ≤ s.config.nmax ∧ loadGenerator bs s = .ok (appendGenerator bs s)) := by
  by_cases h : s.glen.toNat + bs.length > s.config.nmax
  · exact .inl ⟨h, by simp [loadGenerator, h]⟩
  · exact .inr ⟨by omega, by simp [loadGenerator, h]⟩

/-- Everything the start of DBITS, DCHR and END can do (R125). -/
theorem startData_cases (s : State) :
    (s.phase = .gen ∧ generatorOk s = false ∧ startData s = .error .invalidGenerator) ∨
    ((s.phase = .gen → generatorOk s = true) ∧ startData s = .ok (enterData s)) := by
  by_cases hp : s.phase = .gen
  · cases hg : generatorOk s with
    | false => exact .inl ⟨hp, rfl, by simp [startData, hp, hg]⟩
    | true => exact .inr ⟨fun _ => rfl, by simp [startData, hg]⟩
  · exact .inr ⟨fun h => absurd h hp, by simp [startData, hp]⟩

@[simp] theorem feedBits_nil (s : State) : feedBits [] s = s := rfl

@[simp] theorem feedBits_cons (b : Bool) (bs : Bits) (s : State) :
    feedBits (b :: bs) s = feedBits bs (feedBit s b) := rfl

theorem feedBits_append (s : State) (bs cs : Bits) : feedBits (bs ++ cs) s = feedBits cs (feedBits bs s) := by
  simp [feedBits]

/-- What feeding leaves alone (R140): everything but REG, LEN and COUT. -/
theorem feedBits_frame (bs : Bits) (s : State) :
    feedBits bs s =
      { s with reg := (feedBits bs s).reg, len := (feedBits bs s).len, cout := (feedBits bs s).cout } := by
  induction bs generalizing s with
  | nil => rfl
  | cons b bs ih => rw [feedBits_cons, ih (feedBit s b)]; rfl

/-- Feeding is one Step per bit (R107). -/
theorem feedBits_reg (bs : Bits) (s : State) :
    (feedBits bs s).reg = divSteps s.reg s.gen s.glen.toNat bs := by
  induction bs generalizing s with
  | nil => rfl
  | cons b bs ih => rw [feedBits_cons, ih]; rfl

/-- LEN counts the bits with saturation (R26). -/
theorem feedBits_len (bs : Bits) (s : State) :
    (feedBits bs s).len = BitVec.ofNat 32 (sat32 (s.len.toNat + bs.length)) := by
  induction bs generalizing s with
  | nil => apply BitVec.eq_of_toNat_eq; simp [sat32]; omega
  | cons b bs ih =>
    rw [feedBits_cons, ih]
    apply BitVec.eq_of_toNat_eq
    simp [sat32]
    omega

/-- In DET nothing is emitted, in ENC the bits are (R30, R140). -/
theorem feedBits_cout (bs : Bits) (s : State) :
    (feedBits bs s).cout = match s.mode with
      | .enc => s.cout ++ bs
      | .det => s.cout := by
  induction bs generalizing s with
  | nil => cases hm : s.mode <;> simp
  | cons b bs ih => rw [feedBits_cons, ih]; cases hm : s.mode <;> simp [feedBit, hm]

/-- Everything feeding by a command can do (R140, R141). -/
theorem feedData_cases (bs : Bits) (s : State) :
    (s.phase = .gen ∧ generatorOk s = false ∧ feedData bs s = .error .invalidGenerator) ∨
    ((s.phase = .gen → generatorOk s = true) ∧ feedData bs s = .ok (feedBits bs (enterData s))) := by
  rcases startData_cases s with ⟨hp, hg, h⟩ | ⟨hg, h⟩
  · exact .inl ⟨hp, hg, by simp [feedData, h]⟩
  · exact .inr ⟨hg, by simp [feedData, h]⟩

/-- Everything DetFinish can do (43_syndrome_detector.md R160). -/
theorem detFinish_cases (s : State) :
    (s.len.toNat < s.glen.toNat ∧ detFinish s = .error .inputTooShort) ∨
    (s.glen.toNat ≤ s.len.toNat ∧
      detFinish s = .ok (writeHasErr (storeResult (reduce s.reg s.gen s.glen.toNat) s))) := by
  by_cases h : s.len.toNat < s.glen.toNat
  · exact .inl ⟨h, by simp [detFinish, h]⟩
  · exact .inr ⟨by omega, by simp [detFinish, h]⟩

end Sys2Proof.Machine
end

