-- ==== Sys2Proof/Laws/Exec.lean ====
section
/-! SUPPORT. What each command can do, said once: if it answers t, then one of these cases holds. -/

namespace Sys2Proof.Machine

/-- An error a command raised: PHASE and ECODE, from a phase that is not ERROR, with a code the block produces. -/
def Raised (s t : State) : Prop :=
  ∃ e, s.phase ≠ .error ∧ e ≠ .none ∧ e ≠ .positionOutOfRange ∧ t = errorEntry e s

theorem raised {s t : State} (e : ErrorCode) (hp : s.phase ≠ .error) (hn : e ≠ .none) (hr : e ≠ .positionOutOfRange)
    (h : t = errorEntry e s) : Raised s t := ⟨e, hp, hn, hr, h⟩

theorem execGbits_cases {k : Nat} {v : BitVec 16} {s t : State} (h : execGbits k v s = .next t) :
    (s.phase = .error ∧ t = s) ∨ Raised s t ∨ (s.phase = .gen ∧ t = appendGenerator (payloadBits k v) s) := by
  rcases perform_cases h with ⟨a, b⟩ | ⟨a, b⟩ | ⟨e, a, b, c⟩ | ⟨a, b⟩ <;> cases hp : s.phase <;>
    simp only [hp, legality, reduceCtorEq] at a
  · exact .inl ⟨rfl, b⟩
  iterate 3 exact .inr (.inl (raised _ (by simp [hp]) (by decide) (by decide) b))
  all_goals rcases loadGenerator_cases (payloadBits k v) s with ⟨_, d⟩ | ⟨_, d⟩ <;> rw [d] at b <;> cases b
  · exact .inr (.inl (raised _ (by simp [hp]) (by decide) (by decide) c))
  · exact .inr (.inr ⟨rfl, rfl⟩)

theorem execGchr_cases {c : BitVec 8} {s t : State} (h : execGchr c s = .next t) :
    (s.phase = .error ∧ t = s) ∨ Raised s t ∨
      (s.phase = .gen ∧ ∃ b, symbolBit c = some b ∧ t = appendGenerator [b] s) := by
  rcases perform_cases h with ⟨a, b⟩ | ⟨a, b⟩ | ⟨e, a, b, d⟩ | ⟨a, b⟩ <;> cases hp : s.phase <;>
    simp only [hp, legality, reduceCtorEq] at a
  · exact .inl ⟨rfl, b⟩
  iterate 3 exact .inr (.inl (raised _ (by simp [hp]) (by decide) (by decide) b))
  all_goals rcases hs : symbolBit c with _ | x <;> simp only [gchrEffect, hs] at b
  · cases b; exact .inr (.inl (raised _ (by simp [hp]) (by decide) (by decide) d))
  · rcases loadGenerator_cases [x] s with ⟨_, f⟩ | ⟨_, f⟩ <;> rw [f] at b <;> cases b
    exact .inr (.inl (raised _ (by simp [hp]) (by decide) (by decide) d))
  · cases b
  · rcases loadGenerator_cases [x] s with ⟨_, f⟩ | ⟨_, f⟩ <;> rw [f] at b <;> cases b
    exact .inr (.inr ⟨rfl, x, rfl, rfl⟩)

/-- The two phases in which data are fed, with what ValidateGen leaves known. -/
def Feeding (s : State) : Prop := s.phase = .data ∨ (s.phase = .gen ∧ generatorOk s = true)

theorem feedData_effect {bs : Bits} {s : State} (hp : s.phase = .gen ∨ s.phase = .data) {t : State} :
    settle s (feedData bs s) = t → Raised s t ∨ (Feeding s ∧ t = feedBits bs (enterData s)) := by
  rintro rfl
  have hne : s.phase ≠ .error := by rcases hp with hp | hp <;> simp [hp]
  rcases feedData_cases bs s with ⟨_, _, h⟩ | ⟨hg, h⟩ <;> rw [h]
  · exact .inl (raised _ hne (by decide) (by decide) rfl)
  · exact .inr ⟨hp.elim (fun h => .inr ⟨h, hg h⟩) .inl, rfl⟩

theorem execDbits_cases {k : Nat} {v : BitVec 16} {s t : State} (h : execDbits k v s = .next t) :
    (s.phase = .error ∧ t = s) ∨ Raised s t ∨ (Feeding s ∧ t = feedBits (payloadBits k v) (enterData s)) := by
  cases hp : s.phase with
  | error => rw [execDbits, perform_ignored _ (by rw [hp]; rfl)] at h; cases h; exact .inl ⟨rfl, rfl⟩
  | idle => rw [execDbits, perform_no _ (by rw [hp]; rfl)] at h; cases h
            exact .inr (.inl (raised _ (by simp [hp]) (by decide) (by decide) rfl))
  | done => rw [execDbits, perform_no _ (by rw [hp]; rfl)] at h; cases h
            exact .inr (.inl (raised _ (by simp [hp]) (by decide) (by decide) rfl))
  | gen => rw [execDbits, perform_yes _ (by rw [hp]; rfl)] at h; cases h
           exact .inr (feedData_effect (.inl hp) rfl)
  | data => rw [execDbits, perform_yes _ (by rw [hp]; rfl)] at h; cases h
            exact .inr (feedData_effect (.inr hp) rfl)

theorem dchr_effect {c : BitVec 8} {s t : State} (hp : s.phase = .gen ∨ s.phase = .data)
    (h : settle s (dchrEffect c s) = t) :
    Raised s t ∨ (Feeding s ∧ ∃ b, symbolBit c = some b ∧ t = feedBits [b] (enterData s)) := by
  rcases hs : symbolBit c with _ | x <;> simp only [dchrEffect, hs] at h
  · exact .inl (raised .invalidAlphabet (by rcases hp with hp | hp <;> simp [hp]) (by decide) (by decide) h.symm)
  · exact (feedData_effect hp h).imp id fun ⟨hf, ht⟩ => ⟨hf, x, rfl, ht⟩

theorem execDchr_cases {c : BitVec 8} {s t : State} (h : execDchr c s = .next t) :
    (s.phase = .error ∧ t = s) ∨ Raised s t ∨
      (Feeding s ∧ ∃ b, symbolBit c = some b ∧ t = feedBits [b] (enterData s)) := by
  cases hp : s.phase with
  | error => rw [execDchr, perform_ignored _ (by rw [hp]; rfl)] at h; cases h; exact .inl ⟨rfl, rfl⟩
  | idle => rw [execDchr, perform_no _ (by rw [hp]; rfl)] at h; cases h
            exact .inr (.inl (raised _ (by simp [hp]) (by decide) (by decide) rfl))
  | done => rw [execDchr, perform_no _ (by rw [hp]; rfl)] at h; cases h
            exact .inr (.inl (raised _ (by simp [hp]) (by decide) (by decide) rfl))
  | gen => rw [execDchr, perform_yes _ (by rw [hp]; rfl)] at h; cases h
           exact .inr (dchr_effect (.inl hp) rfl)
  | data => rw [execDchr, perform_yes _ (by rw [hp]; rfl)] at h; cases h
            exact .inr (dchr_effect (.inr hp) rfl)

theorem finish_effect {s t : State} (hp : s.phase = .gen ∨ s.phase = .data) (h : settle s (finishEffect s) = t) :
    Raised s t ∨ (Feeding s ∧ s.mode = .enc ∧ t = encFinish (enterData s)) ∨
      (Feeding s ∧ s.mode = .det ∧ s.glen.toNat ≤ s.len.toNat ∧
        t = writeHasErr (storeResult (reduce s.reg s.gen s.glen.toNat) (enterData s))) := by
  subst h
  have hne : s.phase ≠ .error := by rcases hp with hp | hp <;> simp [hp]
  rcases startData_cases s with ⟨_, _, h⟩ | ⟨hg, h⟩ <;> simp only [finishEffect, h]
  · exact .inl (raised _ hne (by decide) (by decide) rfl)
  · have hf : Feeding s := hp.elim (fun h => .inr ⟨h, hg h⟩) .inl
    cases hm : s.mode with
    | enc => simp only [enterData_mode, hm]; exact .inr (.inl ⟨hf, trivial, rfl⟩)
    | det =>
      simp only [enterData_mode, hm]
      rcases detFinish_cases (enterData s) with ⟨_, d⟩ | ⟨hl, d⟩ <;> rw [d]
      · exact .inl (raised _ hne (by decide) (by decide) rfl)
      · exact .inr (.inr ⟨hf, trivial, hl, rfl⟩)

theorem execFinish_cases {s t : State} (h : execFinish s = .next t) :
    (s.phase = .error ∧ t = s) ∨ Raised s t ∨ (Feeding s ∧ s.mode = .enc ∧ t = encFinish (enterData s)) ∨
      (Feeding s ∧ s.mode = .det ∧ s.glen.toNat ≤ s.len.toNat ∧
        t = writeHasErr (storeResult (reduce s.reg s.gen s.glen.toNat) (enterData s))) := by
  cases hp : s.phase with
  | error => rw [execFinish, perform_ignored _ (by rw [hp]; rfl)] at h; cases h; exact .inl ⟨rfl, rfl⟩
  | idle => rw [execFinish, perform_no _ (by rw [hp]; rfl)] at h; cases h
            exact .inr (.inl (raised _ (by simp [hp]) (by decide) (by decide) rfl))
  | done => rw [execFinish, perform_no _ (by rw [hp]; rfl)] at h; cases h
            exact .inr (.inl (raised _ (by simp [hp]) (by decide) (by decide) rfl))
  | gen => rw [execFinish, perform_yes _ (by rw [hp]; rfl)] at h; cases h
           exact .inr (finish_effect (.inl hp) rfl)
  | data => rw [execFinish, perform_yes _ (by rw [hp]; rfl)] at h; cases h
            exact .inr (finish_effect (.inr hp) rfl)

theorem execIllegal_cases {s t : State} (h : execIllegal s = .next t) :
    (s.phase = .error ∧ t = s) ∨ Raised s t := by
  rcases perform_cases h with ⟨a, b⟩ | ⟨a, b⟩ | ⟨e, a, b, d⟩ | ⟨a, b⟩ <;> cases hp : s.phase <;>
    simp only [hp, legality, reduceCtorEq] at a
  · exact .inl ⟨rfl, b⟩
  all_goals exact .inr (raised _ (by simp [hp]) (by decide) (by decide) b)

/-- Everything any command can do: nothing, open an operation, raise an error, append to the generator, feed data, or
finish in one of the two modes. -/
theorem exec_cases {i : Instr} {s t : State} (h : exec i s = .next t) :
    ((i = .nop ∨ s.phase = .error) ∧ t = s) ∨
    (i = .bege ∧ t = openOperation .enc s) ∨
    (i = .begd ∧ t = openOperation .det s) ∨
    (i ≠ .nop ∧ classOf i ≠ .opening ∧ Raised s t) ∨
    (∃ bs, generatorBits i = some bs ∧ s.phase = .gen ∧ t = appendGenerator bs s) ∨
    (∃ bs, dataBits i = some bs ∧ Feeding s ∧ t = feedBits bs (enterData s)) ∨
    (i = .finish ∧ s.mode = .enc ∧ Feeding s ∧ t = encFinish (enterData s)) ∨
    (i = .finish ∧ s.mode = .det ∧ Feeding s ∧ s.glen.toNat ≤ s.len.toNat ∧
      t = writeHasErr (storeResult (reduce s.reg s.gen s.glen.toNat) (enterData s))) := by
  cases i with
  | nop => cases h; exact .inl ⟨.inl rfl, rfl⟩
  | bege => cases h; exact .inr (.inl ⟨rfl, rfl⟩)
  | begd => cases h; exact .inr (.inr (.inl ⟨rfl, rfl⟩))
  | gbits k v =>
    rcases execGbits_cases h with ⟨a, b⟩ | a | ⟨a, b⟩
    · exact .inl ⟨.inr a, b⟩
    · simp [classOf, a]
    · simp [generatorBits, a, b]
  | gchr c =>
    rcases execGchr_cases h with ⟨a, b⟩ | a | ⟨a, x, hx, b⟩
    · exact .inl ⟨.inr a, b⟩
    · simp [classOf, a]
    · simp [generatorBits, a, b, hx]
  | dbits k v =>
    rcases execDbits_cases h with ⟨a, b⟩ | a | ⟨a, b⟩
    · exact .inl ⟨.inr a, b⟩
    · simp [classOf, a]
    · simp [dataBits, a, b]
  | dchr c =>
    rcases execDchr_cases h with ⟨a, b⟩ | a | ⟨a, x, hx, b⟩
    · exact .inl ⟨.inr a, b⟩
    · simp [classOf, a]
    · simp [dataBits, a, b, hx]
  | finish =>
    rcases execFinish_cases h with ⟨a, b⟩ | a | ⟨a, m, b⟩ | ⟨a, m, l, b⟩
    · exact .inl ⟨.inr a, b⟩
    · simp [classOf, a]
    · simp [m, a, b]
    · simp [m, a, b, l]

end Sys2Proof.Machine
end

