-- ==== Sys2Proof/Laws/PerInstr.lean ====
section
/-! SUPPORT. The family OpcodeField: the OP field of every command's word is the one of the opcode map (30_encoding.md R71, R72). -/

namespace Sys2Proof.Laws.OpcodeField

/-- The OP value the opcode map gives the command (R72). -/
def opcode : Instr → BitVec 4
  | .nop => 0x0
  | .bege => 0x1
  | .begd => 0x2
  | .gbits _ _ => 0x3
  | .gchr _ => 0x4
  | .dbits _ _ => 0x5
  | .dchr _ => 0x6
  | .finish => 0x7

/-- The word of a well-formed command carries its OP. -/
def Statement (i : Instr) : Prop := i.WellFormed → opField (encode i) = opcode i

theorem packed_count {k : Nat} {v : BitVec 16} (h : packedOk k v = true) : k - 1 < 16 := by
  simp [packedOk] at h; omega

theorem encodeB_op {k : Nat} (v : BitVec 16) (hk : k - 1 < 16) (op : BitVec 4) :
    opField (encodeB (op.setWidth 32) k v) = op := by
  have h : ∀ n : Fin 16, ∀ o : BitVec 4,
      (o.setWidth 32 <<< 28 ||| BitVec.ofNat 32 n.val <<< 16 : Word).extractLsb' 28 4 = o := by decide
  have hv : (v.setWidth 32 : Word).extractLsb' 28 4 = 0 := by
    apply BitVec.eq_of_getLsbD_eq; intro i hi; simp [BitVec.getLsbD_extractLsb', BitVec.getLsbD_setWidth]
    intro _ _; exact BitVec.getLsbD_of_ge _ _ (by omega)
  rw [opField, encodeB, BitVec.extractLsb'_or, h ⟨k - 1, hk⟩ op, hv]
  simp

theorem nop : Statement .nop := fun _ => rfl
theorem bege : Statement .bege := fun _ => rfl
theorem begd : Statement .begd := fun _ => rfl
theorem gbits (k : Nat) (v : BitVec 16) : Statement (.gbits k v) := fun h => encodeB_op v (packed_count h) 3
theorem gchr (c : BitVec 8) : Statement (.gchr c) := fun _ => by revert c; decide
theorem dbits (k : Nat) (v : BitVec 16) : Statement (.dbits k v) := fun h => encodeB_op v (packed_count h) 5
theorem dchr (c : BitVec 8) : Statement (.dchr c) := fun _ => by revert c; decide
theorem finish : Statement .finish := fun _ => rfl

end Sys2Proof.Laws.OpcodeField
end

