-- ==== Sys2Proof/Laws/Step.lean ====
section
/-! SUPPORT. What one step can do, said once (20_memory.md R51, 70_reset_and_hazards.md R230, R245). -/

namespace Sys2Proof.Machine

/-- Every instruction answers a next state (R230). -/
theorem exec_next (i : Instr) (s : State) : ∃ t, exec i s = .next t := by
  cases i with
  | nop => exact perform_next .nop (fun s => .ok s) s
  | bege => exact perform_next .opening (fun s => .ok (openOperation .enc s)) s
  | begd => exact perform_next .opening (fun s => .ok (openOperation .det s)) s
  | gbits k v => exact perform_next .generator _ s
  | gchr c => exact perform_next .generator _ s
  | dbits k v => exact perform_next .data _ s
  | dchr c => exact perform_next .data _ s
  | finish => exact perform_next .finish _ s

/-- Every word answers a next state (R230). -/
theorem execWord_next (w : Word) (s : State) : ∃ t, execWord w s = .next t := by
  unfold execWord
  cases decode w with
  | legal i => exact exec_next i s
  | illegal _ => exact perform_next _ _ _

/-- Completion of the command in progress: its effect, or no progress while the output is withheld (R55). -/
theorem completeCommand_eq {w : Word} {s t : State} (h : execWord w (retire s) = .next t) :
    completeCommand w s = .next (if stalled s t then s else t) := by simp [completeCommand, h]

theorem step_valid {s : State} (h : s.config.valid = true) : step s = cycle s := by
  simp [step, guardedCycle, h]

/-- Everything a step can do when it answers a next state. -/
theorem step_cases {s t : State} (h : step s = .next t) :
    s.config.valid = true ∧
    ((∃ a rest, s.host = .read a :: rest ∧ t = serveRead a (dropAction s)) ∨
     (∃ rest, s.host = .reset :: rest ∧ t = applyReset (dropAction s)) ∨
     (∃ l rest, s.host = .setCwReady l :: rest ∧ t = driveCwReady l (dropAction s)) ∨
     (anyTimeAction s = none ∧ ∃ w u, s.inProgress = some w ∧ execWord w (retire s) = .next u ∧
        t = if stalled s u then s else u) ∨
     (s.inProgress = none ∧ ∃ w rest, s.host = .write w :: rest ∧ t = acceptWord w (dropAction s)) ∨
     (s.inProgress = none ∧ ∃ rest, s.host = .await :: rest ∧ t = dropAction s) ∨
     (s.inProgress = none ∧ s.host = [] ∧ t = s)) := by
  cases hv : s.config.valid with
  | false => simp [step, guardedCycle, hv] at h
  | true =>
    rw [step_valid hv, cycle] at h
    refine ⟨rfl, ?_⟩
    have complete : ∀ w, anyTimeAction s = none → s.inProgress = some w → completeCommand w s = .next t →
        ∃ w u, s.inProgress = some w ∧ execWord w (retire s) = .next u ∧ t = if stalled s u then s else u := by
      intro w _ hi hc
      obtain ⟨u, hu⟩ := execWord_next w (retire s)
      rw [completeCommand_eq hu] at hc
      cases hc
      exact ⟨w, u, hi, hu, rfl⟩
    rcases hh : s.host with _ | ⟨a, rest⟩
    · have ha : anyTimeAction s = none := by simp [anyTimeAction, hh]
      rw [ha] at h
      cases hi : s.inProgress with
      | some w => rw [hi] at h; exact .inr (.inr (.inr (.inl ⟨ha, hi ▸ complete w ha hi h⟩)))
      | none =>
        rw [hi] at h
        simp [boundaryStep, hh] at h
        simp [h]
    · cases a with
      | read a => simp [anyTimeAction, hh] at h; simp [← h]
      | reset => simp [anyTimeAction, hh] at h; simp [← h]
      | setCwReady l => simp [anyTimeAction, hh] at h; simp [← h]
      | write w =>
        have ha : anyTimeAction s = none := by simp [anyTimeAction, hh]
        rw [ha] at h
        cases hi : s.inProgress with
        | some w => rw [hi] at h; exact .inr (.inr (.inr (.inl ⟨ha, hi ▸ complete w ha hi h⟩)))
        | none => rw [hi] at h; simp [boundaryStep, hh] at h; simp [← h]
      | await =>
        have ha : anyTimeAction s = none := by simp [anyTimeAction, hh]
        rw [ha] at h
        cases hi : s.inProgress with
        | some w => rw [hi] at h; exact .inr (.inr (.inr (.inl ⟨ha, hi ▸ complete w ha hi h⟩)))
        | none => rw [hi] at h; simp [boundaryStep, hh] at h; simp [← h]

end Sys2Proof.Machine
end

