-- ==== Sys2Proof/Tests/Slice0.lean ====
section
/-! SUPPORT. The model's own tests: ill-formed terms refused, words written out from the encoding tables, one step per command against the vectors of 95_test_vectors.md, and a witness for the hypotheses of each statement. -/

namespace Sys2Proof.Tests

open Sys2Proof Sys2Proof.Machine

/-! ### WellFormed smoke test: one ill-formed term for each check, and the ends of the ranges -/

theorem test_wf_count_zero : Instr.wf (.gbits 0 0) = false := by decide
theorem test_wf_count_seventeen : Instr.wf (.dbits 17 0) = false := by decide
theorem test_wf_stray_payload : Instr.wf (.gbits 1 2) = false := by decide
theorem test_wf_stray_payload_15 : Instr.wf (.dbits 15 0x8000) = false := by decide
theorem test_wf_count_one : Instr.wf (.gbits 1 1) = true := by decide
theorem test_wf_count_sixteen : Instr.wf (.dbits 16 0xFFFF) = true := by decide

/-! ### Words written out bit by bit from 30_encoding.md R71 and R72: OP, RSV, K, PAY or CH -/

theorem test_word_nop : decode (0b0000#4 ++ 0#28) = .legal .nop := by decide
theorem test_word_bege : decode (0b0001#4 ++ 0#28) = .legal .bege := by decide
theorem test_word_begd : decode (0b0010#4 ++ 0#28) = .legal .begd := by decide
theorem test_word_gbits :
    decode (0b0011#4 ++ 0b00000000#8 ++ 0b0011#4 ++ 0b0000000000001101#16) = .legal (.gbits 4 0xD) := by decide
theorem test_word_gchr : decode (0b0100#4 ++ 0#20 ++ 0b00110001#8) = .legal (.gchr 0x31) := by decide
theorem test_word_dbits :
    decode (0b0101#4 ++ 0b00000000#8 ++ 0b1111#4 ++ 0b1000000000000001#16) = .legal (.dbits 16 0x8001) := by decide
theorem test_word_dchr : decode (0b0110#4 ++ 0#20 ++ 0b01111000#8) = .legal (.dchr 0x78) := by decide
theorem test_word_end : decode (0b0111#4 ++ 0#28) = .legal .finish := by decide

/-- V-41-10: the illegal words of the vectors, each by its reason (R77). -/
theorem test_illegal_words :
    [0x00000001, 0x80000000, 0xF0000000, 0x3003001D, 0x30100001, 0x40000100, 0x70000001, 0x5000FFFE].map decode =
      [.illegal .reservedBits, .illegal .opcode, .illegal .opcode, .illegal .strayPayload, .illegal .reservedBits,
       .illegal .reservedBits, .illegal .reservedBits, .illegal .strayPayload] := by decide

/-- V-41-10b: DBITS 16, 0 is legal. -/
theorem test_dbits_sixteen_zero : decode 0x500F0000 = .legal (.dbits 16 0) := by decide

theorem test_table_word_end : decodeTableWord 32 0x70000000 = some .finish := by decide
theorem test_table_word_illegal : decodeTableWord 32 0x80000000 = none := by decide

/-! ### Small states -/

/-- The state of an outcome; the state after reset stands for a stop. -/
def stateOf (r : Result) : State :=
  match r with
  | .next t => t
  | .fault _ => State.reset
  | .refused _ => State.reset

/-- PHASE GEN with a generator loaded. -/
def genState (m : Mode) (n : BitVec 7) (g : Reg64) : State :=
  { State.reset with phase := .gen, mode := m, glen := n, gen := g }

/-- PHASE DATA, encode, G = "1101", M = "1011" fed (program P1). -/
def encData : State :=
  { genState .enc 4 0xD with phase := .data, reg := 0xB, len := 4, cout := [true, false, true, true] }

/-- PHASE DATA, detect, G = "1101", C' = "1001100" fed (program P3). -/
def detData : State := { genState .det 4 0xD with phase := .data, reg := 0xA, len := 7 }

/-- PHASE DONE, encode: program P1 after END. -/
def encDone : State :=
  { genState .enc 4 0xD with
      phase := .done, reg := 4, res := 4, len := 4, cout := [true, false, true, true, true, false, false] }

/-- PHASE ERROR: END in IDLE (V-41-11). -/
def errState : State := { State.reset with phase := .error, ecode := .illegalCommand }

/-- A state with a word in progress and a host script. -/
def busyWith (w : Word) (h : List HostAction) (s : State) : State := { s with inProgress := some w, host := h }

/-! ### One step per command, expected values from 95_test_vectors.md -/

/-- V-41-8: NOP in DONE leaves STATUS 0x00000013. -/
theorem test_nop_done : statusWord (stateOf (exec .nop encDone)) = 0x00000013 := by decide
/-- V-41-1. -/
theorem test_bege_status : statusWord (stateOf (step (State.reset.withFetchWord 32 0x10000000))) = 0x00000001 := by decide
/-- V-41-2. -/
theorem test_begd_status : statusWord (stateOf (step (State.reset.withFetchWord 32 0x20000000))) = 0x00000009 := by decide
/-- V-41-4: the second half of "1101" after its first half. -/
theorem test_gbits_second_chunk :
    (stateOf (exec (.gbits 2 1) (genState .enc 2 3))).gen = 0xD ∧
      (stateOf (exec (.gbits 2 1) (genState .enc 2 3))).glen = 4 := by decide
/-- V-41-7b: one bit past NMAX. -/
theorem test_gbits_past_nmax :
    statusWord (stateOf (exec (.gbits 1 1) (genState .enc 64 0x8000000000000001))) = 0x00000644 := by decide
/-- V-41-5: the last symbol of "1101". -/
theorem test_gchr_last : (stateOf (exec (.gchr 0x31) (genState .enc 3 6))).gen = 0xD := by decide
/-- V-41-7c: InvalidAlphabet ranks before CapacityExceeded. -/
theorem test_gchr_alphabet_first :
    statusWord (stateOf (exec (.gchr 0x32) (genState .enc 64 0x8000000000000001))) = 0x00000144 := by decide
/-- V-42-1. -/
theorem test_dbits_encode : exec (.dbits 4 0xB) (genState .enc 4 0xD) = .next encData := by rfl
/-- V-43-2: REG before END is 0xA; in DET nothing is emitted. -/
theorem test_dbits_detect : exec (.dbits 7 0x4C) (genState .det 4 0xD) = .next detData := by rfl
/-- V-42-2. -/
theorem test_dchr_one :
    (stateOf (exec (.dchr 0x31) (genState .enc 4 0xD))).reg = 1 ∧
      (stateOf (exec (.dchr 0x31) (genState .enc 4 0xD))).cout = [true] := by decide
/-- V-43-9: InvalidGenerator at the first DCHR. -/
theorem test_dchr_bad_generator : statusWord (stateOf (exec (.dchr 0x31) (genState .det 4 5))) = 0x0000024C := by decide
/-- P1: RES = "100", COUT = "1011100". -/
theorem test_end_encode : exec .finish encData = .next encDone := by rfl
/-- V-43-2: the syndrome "111" needs the final Reduce. -/
theorem test_end_detect :
    (stateOf (exec .finish detData)).res = 7 ∧ statusWord (stateOf (exec .finish detData)) = 0x0000003B := by decide

/-- V-40-1, V-40-2, V-40-7, V-40-8. -/
theorem test_step_vectors :
    divStep 0b1011 0b1101 4 false = 0b1100 ∧ divStep 0b0110 0b1101 4 true = 0b1101 ∧
      divStep 0b1111 0b1101 4 true = 0b0101 ∧ divStep 0b11 0b11 2 true = 0b01 ∧ divStep 0b10 0b10 2 true = 0b01 := by
  decide
/-- V-40-4. -/
theorem test_reduce_vectors :
    reduce 0b1010 0b1101 4 = 0b0111 ∧ reduce 0b0100 0b1101 4 = 0b0100 ∧ reduce 0b10 0b11 2 = 0b01 := by decide
/-- V-40-3, V-40-5, V-40-6. -/
theorem test_rem_vectors :
    rem [true, false] [true, true] = [true] ∧
      rem [true, false, true, true, false, false, false] [true, true, false, true] = [true, false, false] ∧
      rem [] [true, true, false, true] = [false, false, false] := by decide
/-- W3, W6. -/
theorem test_inject_error :
    injectError [true, false, true, true, true, false, false] 3 = .ok [true, false, false, true, true, false, false] ∧
      injectError [true, false, true, true, true, false, false] 0 = .error .positionOutOfRange ∧
      injectError [true, false, true, true, true, false, false] 8 = .error .positionOutOfRange := ⟨rfl, rfl, rfl⟩

/-- R53: PARAM of the reference configuration, and both halves of a register. -/
theorem test_read_map : readMap State.reset 9 = 0x40 ∧
    readMap (genState .enc 64 0x8000000000000001) 5 = 1 ∧
    readMap (genState .enc 64 0x8000000000000001) 6 = 0x80000000 := by decide
/-- R241: STATUS while a command is in progress shows BUSY and the state before it. -/
theorem test_status_busy : statusWord (busyWith 0x70000000 [] encData) = 0x00000082 := by decide
/-- R55: END emits, so it does not complete while cw_ready is 0. -/
theorem test_stalled_end :
    step { busyWith 0x70000000 [] encData with cwReady := false } =
      .next { busyWith 0x70000000 [] encData with cwReady := false } := by rfl
/-- R51: a word offered is accepted when BUSY = 0. -/
theorem test_accept :
    step { State.reset with host := [.write 0x10000000] } = .next { State.reset with inProgress := some 0x10000000 } := by
  rfl
/-- R231: reset abandons a command in progress. -/
theorem test_reset_busy : step (busyWith 0x70000000 [.reset] encData) = .next State.reset := by rfl
/-- R207 (a): NMAX = 65 and NMAX = 1 are refused. -/
theorem test_bad_config :
    step { State.reset with config := { nmax := 65 } } = .refused .badConfig ∧
      step { State.reset with config := { nmax := 1 } } = .refused .badConfig := ⟨rfl, rfl⟩

/-- R80, R81: lines of program P1 and the pseudo-instruction that expands to it. -/
theorem test_assemble_gbits :
    assembleLine ['g', 'B', 'i', 't', 's', ' ', '4', ',', ' ', '0', 'x', 'D', ' ', ';', ' ', 'G'] =
      .ok [.gbits 4 0xD] := by rfl
theorem test_assemble_symbol : assembleLine ['d', 'c', 'h', 'r', ' ', '\'', ';', '\''] = .ok [.dchr 0x3B] := by rfl
theorem test_assemble_refuses : assembleLine ['d', 'b', 'i', 't', 's', ' ', '1', ',', '2'] = .error .noEncoding := by rfl
theorem test_asm_encode :
    (asmEncode [true, true, false, true] [true, false, true, true]).map encode =
      [0x10000000, 0x3003000D, 0x5003000B, 0x70000000] := by decide

theorem test_assemble_dbyte :
    assembleLine ['d', 'b', 'y', 't', 'e', ' ', '0', 'x', 'A', '5'] = .ok [.dbits 8 0xA5] ∧
      dataBits (.dbits 8 0xA5) = some [true, false, true, false, false, true, false, true] := ⟨rfl, by decide⟩
/-- R81: 17 bits are a chunk of 16 from the left and one of 1. -/
theorem test_chunks : asmData (true :: zeros 15 ++ [true]) = [.dbits 16 0x8000, .dbits 1 1] := by decide

/-! ### Witnesses: states and operands that meet the hypotheses of the statements -/

theorem witness_inv_reset : Inv State.reset := by constructor <;> decide
theorem witness_inv_gen : Inv (genState .enc 4 0xD) := by constructor <;> decide
theorem witness_inv_gen_max : Inv (genState .det 64 0x8000000000000001) := by constructor <;> decide
theorem witness_inv_encData : Inv encData := by constructor <;> decide
theorem witness_inv_detData : Inv detData := by constructor <;> decide
theorem witness_inv_encDone : Inv encDone := by constructor <;> decide
theorem witness_inv_error : Inv errState := by constructor <;> decide

/-- CommandEncodingIsUnique, GbitsAppendsWholePayload, DbitsFeedsBits: the ends of the operand range; a legal word. -/
theorem witness_packed : packedOk 1 1 = true ∧ packedOk 16 0xFFFF = true ∧ Instr.WellFormed (.gbits 16 0) ∧
    decode 0x300F0000 = .legal (.gbits 16 0) := by decide
/-- IllegalWordsRaiseIllegalCommand, ErrorPriority, PhaseLegalityTable: an illegal word in a phase that is not ERROR. -/
theorem witness_illegal : decode 0x5000FFFE = .illegal .strayPayload ∧ encData.phase ≠ .error := by decide
/-- BegeOpensEncode, BegdOpensDetect: an answer exists. -/
theorem witness_opening :
    exec .bege errState = .next (genState .enc 0 0) ∧ exec .begd State.reset = .next (genState .det 0 0) := ⟨rfl, rfl⟩
/-- FirstDataCommandValidatesGenerator, both cases: GLEN 1, leading bit 0, and the shortest valid generator. -/
theorem witness_validate :
    (genState .enc 1 1).phase = .gen ∧ generatorOk (genState .enc 1 1) = false ∧
      generatorOk (genState .enc 4 5) = false ∧ generatorOk (genState .enc 2 2) = true ∧
      (dataBits (.dchr 0x30)).isSome = true ∧ (dataBits (.dbits 1 0)).isSome = true := by decide
/-- FirstDataCommandValidatesGenerator, the clause under the invariant: PHASE DATA and PHASE DONE. -/
theorem witness_validated : Inv encData ∧ encData.phase = .data ∧ Inv encDone ∧ encDone.phase = .done :=
  ⟨witness_inv_encData, by decide, witness_inv_encDone, by decide⟩
/-- EndEncodeStoresChecksum: in DATA, and in GEN at the smallest and the largest width. -/
theorem witness_end_encode :
    (encData.mode = .enc ∧ encData.phase = .data) ∧
      ((genState .enc 2 3).mode = .enc ∧ (genState .enc 2 3).phase = .gen ∧ generatorOk (genState .enc 2 3) = true) ∧
      generatorOk (genState .enc 64 0x8000000000000001) = true := by decide
/-- EndEncodeStoresChecksum, the clauses under the invariant, with LEN = 0 and with LEN = 4. -/
theorem witness_empty_message :
    Inv (genState .enc 4 0xD) ∧ ((genState .enc 4 0xD).phase = .gen ∧ (genState .enc 4 0xD).mode = .enc ∧
      generatorOk (genState .enc 4 0xD) = true ∧ (genState .enc 4 0xD).len = 0) ∧ Inv encData ∧ encData.mode = .enc :=
  ⟨witness_inv_gen, by decide, witness_inv_encData, by decide⟩
/-- EndDetectStoresSyndrome: LEN below, equal to and above GLEN. -/
theorem witness_end_detect :
    (detData.mode = .det ∧ detData.phase = .data ∧ detData.glen.toNat < detData.len.toNat) ∧
      ({ detData with len := 4 }.len.toNat = detData.glen.toNat) ∧
      ({ detData with len := 3 }.len.toNat < detData.glen.toNat) := by decide
/-- SyndromeTestCoversEveryBit. -/
theorem witness_syndrome :
    Inv detData ∧ detData.phase = .data ∧ detData.mode = .det ∧ detData.glen.toNat ≤ detData.len.toNat :=
  ⟨witness_inv_detData, by decide⟩
/-- GeneratorChunkingHasNoEffect: a mix of both commands that exactly fills GLEN to 64. -/
theorem witness_generator_chunks :
    (genState .enc 61 0).config.valid = true ∧ (genState .enc 61 0).phase = .gen ∧
      carriesGenerator [.gbits 2 3, .gchr 0x31] [true, true, true] ∧
      (genState .enc 61 0).glen.toNat + 3 ≤ (genState .enc 61 0).config.nmax :=
  ⟨by decide, by decide, ⟨by decide, by decide⟩, by decide⟩
/-- DataChunkingHasNoEffect. -/
theorem witness_data_chunks : encData.phase = .data ∧ carriesData [.dbits 1 1, .dchr 0x30] [true, false] :=
  ⟨by decide, by decide, by decide⟩
/-- StepAndReduceArithmetic, RegisterStaysBelowActiveWidth: leading bit 1 and 0, and the widths 2 and 64. -/
theorem witness_step_domain :
    (2 ^ (4 - 1) ≤ (0b1101 : Reg64).toNat ∧ (0b1101 : Reg64).toNat < 2 ^ 4 ∧ (0b1011 : Reg64).toNat < 2 ^ 4) ∧
      (2 ^ (2 - 1) ≤ (0b10 : Reg64).toNat ∧ (0b10 : Reg64).toNat < 2 ^ 2 ∧ (0 : Reg64).toNat < 2 ^ 2) ∧
      (2 ^ (64 - 1) ≤ (0x8000000000000001 : Reg64).toNat ∧ (0x8000000000000001 : Reg64).toNat < 2 ^ 64) := by decide
/-- RemAgreesWithTheDocumentsProcedure, RemIsPolynomialRemainder, RemIsLinear. -/
theorem witness_rem :
    Config.reference.valid = true ∧ validGenerator Config.reference [true, true, false, true] = true ∧
      validGenerator Config.reference [true, false] = true ∧
      [true, true, false, true].length ≤ [true, false, true, true].length ∧
      [true, false, true, true, true, false, false].length = [false, false, true, false, false, false, false].length ∧
      rem [true, false, true, true, true, false, false] [true, true, false, true] = zeros 3 := by decide
/-- EncodeOperationResult, ChecksumIsRederivable, EncodeThenDetectFindsNoError: program P1 and the codeword it gives. -/
theorem witness_encode :
    State.reset.config.valid = true ∧ validGenerator State.reset.config [true, true, false, true] = true ∧
      carriesGenerator [.gbits 4 0xD] [true, true, false, true] ∧ carriesData [.dbits 4 0xB] [true, false, true, true] ∧
      runCommands (.bege :: [.gbits 4 0xD] ++ [.dbits 4 0xB] ++ [.finish]) State.reset = .next encDone ∧
      carriesData [.dbits 7 0x5C] encDone.cout ∧
      carriesData [.dbits 4 0xB] (encDone.cout.take (encDone.cout.length - (4 - 1))) :=
  ⟨by decide, by decide, ⟨by decide, by decide⟩, ⟨by decide, by decide⟩, rfl, ⟨by decide, by decide⟩, by decide, by decide⟩
/-- EncodeThenDetectFindsNoError, the empty message (program P6). -/
theorem witness_encode_empty :
    carriesData [] [] ∧
      (stateOf (runCommands (.bege :: [.gbits 4 0xD] ++ [] ++ [.finish]) State.reset)).cout = [false, false, false] ∧
      carriesData [.dbits 3 0] [false, false, false] := ⟨⟨by decide, by decide⟩, by decide, by decide, by decide⟩
/-- DetectOperationResult: `len(C) = N`. -/
theorem witness_detect :
    carriesData [.dbits 4 0xD] [true, true, false, true] ∧
      [true, true, false, true].length ≤ [true, true, false, true].length := ⟨⟨by decide, by decide⟩, by decide⟩
/-- ErrorPatternDetection: the error pattern of W3, a burst, on the codeword of P1. -/
theorem witness_error_pattern :
    rem [true, false, true, true, true, false, false] [true, true, false, true] = zeros (4 - 1) ∧
      carriesData [.dbits 7 0x4C]
        (xorBits [true, false, true, true, true, false, false] [false, false, true, false, false, false, false]) ∧
      [true, true, false, true].getLast? = some true ∧
      [false, false, true, false, false, false, false] = zeros 2 ++ [true] ++ zeros 4 :=
  ⟨by decide, ⟨by decide, by decide⟩, by decide, by decide⟩
/-- ErrorPatternDetection (a): the pattern that is G itself, undetected. -/
theorem witness_multiple_of_generator : rem [true, true, false, true] [true, true, false, true] = zeros 3 := by decide
/-- SingleBitDetection, both generators: "1101" and "10" (V-43-6) at the first undetected and the last position. -/
theorem witness_single_bit :
    [true, false, true, true, true, false, false] =
        [true, false, true, true] ++ rem ([true, false, true, true] ++ zeros 3) [true, true, false, true] ∧
      injectError [true, false, true, true, true, false, false] 3 = .ok [true, false, false, true, true, false, false] ∧
      carriesData [.dbits 7 0x4C] [true, false, false, true, true, false, false] ∧
      [true, false, true, false] = [true, false, true] ++ rem ([true, false, true] ++ zeros 1) [true, false] ∧
      injectError [true, false, true, false] 3 = .ok [true, false, false, false] ∧
      injectError [true, false, true, false] 4 = .ok [true, false, true, true] ∧
      carriesData [.dbits 4 8] [true, false, false, false] ∧ carriesData [.dbits 4 0xB] [true, false, true, true] :=
  ⟨by decide, rfl, ⟨by decide, by decide⟩, by decide, rfl, rfl, ⟨by decide, by decide⟩, by decide, by decide⟩
/-- ErrorsArePrecise: END in IDLE (V-41-11). -/
theorem witness_error_entry :
    State.reset.phase ≠ .error ∧ execWord 0x70000000 State.reset = .next errState ∧ errState.phase = .error :=
  ⟨by decide, rfl, by decide⟩
/-- ErrorPhaseIgnoresOtherWords, OpeningAndResetLeaveError, the across-commands clause of ErrorPriority. -/
theorem witness_error_phase :
    errState.phase = .error ∧ execWord 0x50000001 errState = .next errState ∧
      ({ errState with host := [.reset] } : State).config.valid = true := ⟨by decide, rfl, by decide⟩
/-- ErrorsEachCommandCanRaise: every row of R201 occurs. -/
theorem witness_errors :
    [(stateOf (exec (.gbits 1 1) State.reset)).ecode, (stateOf (exec (.gbits 1 1) (genState .enc 64 0))).ecode,
     (stateOf (exec (.gchr 0x31) encData)).ecode, (stateOf (exec (.gchr 0x32) (genState .enc 0 0))).ecode,
     (stateOf (exec (.gchr 0x31) (genState .enc 64 0))).ecode,
     (stateOf (exec (.dbits 1 1) encDone)).ecode, (stateOf (exec (.dbits 1 1) (genState .enc 0 0))).ecode,
     (stateOf (exec (.dchr 0x31) encDone)).ecode, (stateOf (exec (.dchr 0x32) encData)).ecode,
     (stateOf (exec (.dchr 0x31) (genState .enc 0 0))).ecode,
     (stateOf (exec .finish State.reset)).ecode, (stateOf (exec .finish (genState .enc 0 0))).ecode,
     (stateOf (exec .finish (genState .det 4 0xD))).ecode] =
    [.illegalCommand, .capacityExceeded, .illegalCommand, .invalidAlphabet, .capacityExceeded, .illegalCommand,
     .invalidGenerator, .illegalCommand, .invalidAlphabet, .invalidGenerator, .illegalCommand, .invalidGenerator,
     .inputTooShort] := by decide
/-- ErrorPriority: each premise on its own state. -/
theorem witness_priority :
    legality (classOf (.gchr 0x32)) encData.phase = .no ∧
      (generatorOk (genState .det 4 5) = false ∧ (genState .det 4 5).phase = .gen) ∧
      (generatorBits (.gbits 1 1) = some [true] ∧
        (genState .enc 64 0).glen.toNat + [true].length > (genState .enc 64 0).config.nmax) ∧
      ((genState .det 4 0xD).len.toNat < (genState .det 4 0xD).glen.toNat ∧
        generatorOk (genState .det 4 0xD) = true) := by decide
/-- PhaseLegalityTable: each class is inhabited, and each phase. -/
theorem witness_classes :
    classOf (.gbits 1 1) = .generator ∧ classOf (.dbits 1 1) = .data ∧ classOf .finish = .finish ∧
      classOf .bege = .opening ∧ [State.reset, genState .enc 4 0xD, encData, encDone, errState].map State.phase =
        [.idle, .gen, .data, .done, .error] := by decide
/-- ReadMapWords: a reserved address at each end of the range. -/
theorem witness_reserved_addresses : (10 : BitVec 4).toNat = 10 ∧ (15 : BitVec 4).toNat = 15 := by decide
/-- ReadHasNoSideEffect. -/
theorem witness_read :
    ({ encData with host := [.read 7] } : State).config.valid = true ∧
      ({ encData with host := [.read 7] } : State).inProgress = none := by decide
/-- ReadWhileBusy, for STATUS and for another word. -/
theorem witness_read_busy :
    (busyWith 0x70000000 [.read 0] encData).config.valid = true ∧
      (busyWith 0x70000000 [.read 3] encData).inProgress = some 0x70000000 ∧
      (busyWith 0x70000000 [.read 3] encData).host = [.read 3] := by decide
/-- CommandPortHandshake, WrittenCommandCompletes: BUSY = 0 and BUSY = 1 with a word offered. -/
theorem witness_handshake :
    ({ encData with host := [.write 0x70000000, .await] } : State).inProgress = none ∧
      ({ encData with host := [.write 0x70000000, .await] } : State).cwReady = true ∧
      (busyWith 0 [.write 0x70000000] encData).inProgress = some 0 := by decide
/-- OutputBackPressure: an emitting and a silent command with cw_ready = 0. -/
theorem witness_back_pressure :
    execWord 0x70000000 encData = .next encDone ∧ encData.cout.length < encDone.cout.length ∧
      execWord 0 encData = .next encData := ⟨rfl, by decide, rfl⟩
/-- StepRunsAcceptedCommand, with each host action the premise admits. -/
theorem witness_step_runs :
    decode 0x70000000 = .legal .finish ∧
      (busyWith 0x70000000 [] encData).inProgress = some 0x70000000 ∧
      (busyWith 0x70000000 [.await] encData).host.head? = some .await ∧
      (busyWith 0x70000000 [.write 5] encData).host.head? = some (.write 5) := by decide
/-- ResetFromAnyState. -/
theorem witness_reset :
    (busyWith 0x70000000 [.reset, .read 0] encData).config.valid = true ∧
      (busyWith 0x70000000 [.reset, .read 0] encData).host = .reset :: [.read 0] := by decide
/-- CommandsAfterReset. -/
theorem witness_idle : State.reset.phase = .idle := rfl
/-- EveryCommandGivesANextState, BadConfigurationIsRefused, InvariantHoldsAtReset: configurations at and past both ends. -/
theorem witness_configs :
    Config.valid { nmax := 2 } = true ∧ Config.valid { nmax := 64 } = true ∧ Config.valid { nmax := 1 } = false ∧
      Config.valid { nmax := 65 } = false := by decide
/-- PhaseWriters, ModeWriters, RegisterWriters: commands that write. -/
theorem witness_writers :
    exec .finish encData = .next encDone ∧ encDone.phase ≠ encData.phase ∧ encDone.res ≠ encData.res ∧
      classOf .finish ≠ .opening ∧
      (stateOf (step (State.reset.withFetchWord 32 0x20000000))).mode ≠ State.reset.mode ∧
      (stateOf (step { State.reset with host := [.reset] })).phase = .idle := ⟨rfl, by decide⟩
/-- StepKeepsInvariant, ConfigurationNeverChanges: a step from a state that meets the invariant. -/
theorem witness_step :
    Inv encData ∧ step encData = .next encData ∧ exec .finish encData = .next encDone := ⟨witness_inv_encData, rfl, rfl⟩
/-- InjectErrorFlipsOneBit: both ends of the range of positions. -/
theorem witness_inject :
    injectError [true, false] 1 = .ok [false, false] ∧ injectError [true, false] 2 = .ok [true, true] := ⟨rfl, rfl⟩
/-- PseudoInstructionsCarryTheirStrings: codes at both ends, strings of 1 and 16 bits, and bytes at both ends. -/
theorem witness_characters :
    ((Char.ofNat 0).toNat < 256 ∧ (Char.ofNat 255).toNat < 256) ∧
      ([true] ≠ [] ∧ [true].length ≤ 16 ∧ (zeros 16).length ≤ 16 ∧ (zeros 16).length = 16) ∧
      number ['0'] = some 0 ∧ number ['0', 'x', 'f', 'F'] = some 255 := by decide
/-- AssemblerAcceptsOnlyEncodable: an accepted line. -/
theorem witness_assembled : assembleLine ['e', 'n', 'd'] = .ok [.finish] := by rfl
/-- WorkIsOneStepPerBit: both modes and both phases that feed, LEN = GLEN in DET, a data and a generator command, and
a generator command that exactly fills GLEN to 64. -/
theorem witness_work :
    (encData.mode = .enc ∧ encData.phase = .data ∧ dataBits (.dchr 0x31) = some [true] ∧
      carriesData [.dbits 1 1, .dchr 0x30] [true, false]) ∧
      ((genState .det 2 3).mode = .det ∧ (genState .det 2 3).phase = .gen ∧ generatorOk (genState .det 2 3) = true) ∧
      (detData.phase = .data ∧ detData.mode = .det ∧ detData.glen.toNat ≤ ({ detData with len := 4 } : State).len.toNat) ∧
      ((genState .enc 62 0).phase = .gen ∧ generatorBits (.gbits 2 3) = some [true, true] ∧
        (genState .enc 62 0).glen.toNat + [true, true].length ≤ (genState .enc 62 0).config.nmax) ∧
      carriesGenerator [.gbits 2 3, .gchr 0x31] [true, true, true] :=
  ⟨⟨rfl, rfl, by decide, by decide, by decide⟩, by decide, by decide, by decide, by decide, by decide⟩
/-- PinChangeAndIdleSteps: the pin falls under a command in progress and rises with none, a wait ends, no action left. -/
theorem witness_pin :
    ((busyWith 0x70000000 [.setCwReady false] encData).config.valid = true ∧
      (busyWith 0x70000000 [.setCwReady false] encData).host = [.setCwReady false] ∧
      ({ encData with host := [.setCwReady true] } : State).host = [.setCwReady true]) ∧
      (({ encData with host := [.await, .read 0] } : State).inProgress = none ∧
        ({ encData with host := [.await, .read 0] } : State).host = .await :: [.read 0]) ∧
      encData.inProgress = none ∧ encData.host = [] := by decide

end Sys2Proof.Tests
end

section
/-! PROOFS. InjectError flips one bit, and no command raises PositionOutOfRange (00_scope.md R5). -/

namespace Sys2Proof.Machine

theorem flipAt_eq_modify (j : Nat) (cw : Bits) : flipAt j cw = cw.modify j (fun b => !b) := by
  induction j, cw using flipAt.induct with
  | case1 j => simp [flipAt]
  | case2 b bs => rfl
  | case3 j b bs ih => simp [flipAt, ih]

@[simp] theorem flipAt_length (j : Nat) (cw : Bits) : (flipAt j cw).length = cw.length := by
  simp [flipAt_eq_modify]

theorem flipAt_getElem?_self (j : Nat) (cw : Bits) : (flipAt j cw)[j]? = (cw[j]?).map (fun b => !b) := by
  simp [flipAt_eq_modify]

theorem flipAt_getElem?_of_ne {i j : Nat} (h : i ≠ j) (cw : Bits) : (flipAt j cw)[i]? = cw[i]? := by
  simp [flipAt_eq_modify, h.symm]

theorem injectError_of_outside {c : Bits} {p : Nat} (h : p < 1 ∨ p > c.length) :
    injectError c p = .error .positionOutOfRange := if_pos h

theorem injectError_of_inside {c : Bits} {p : Nat} (h₁ : 1 ≤ p) (h₂ : p ≤ c.length) :
    injectError c p = .ok (flipAt (p - 1) c) := if_neg (by omega)

@[simp] theorem feedBits_ecode (bs : Bits) (s : State) : (feedBits bs s).ecode = s.ecode := by
  rw [feedBits_frame]

@[simp] theorem encFinish_ecode (s : State) : (encFinish s).ecode = s.ecode := rfl

theorem Raised.ecode_ne_positionOutOfRange {s t : State} (h : Raised s t) : t.ecode ≠ .positionOutOfRange := by
  obtain ⟨e, -, -, he, rfl⟩ := h
  simpa using he

/-- The writers of ECODE among the commands (10_state.md R31): opening an operation clears it, an error sets it. -/
theorem exec_ecode_cases {i : Instr} {s t : State} (h : exec i s = .next t) :
    t.ecode = s.ecode ∨ t.ecode = .none ∨ Raised s t := by
  rcases exec_cases h with ⟨-, rfl⟩ | ⟨-, rfl⟩ | ⟨-, rfl⟩ | ⟨-, -, hr⟩ | ⟨bs, -, -, rfl⟩ | ⟨bs, -, -, rfl⟩ |
    ⟨-, -, -, rfl⟩ | ⟨-, -, -, -, rfl⟩
  case inr.inl | inr.inr.inl => exact .inr (.inl rfl)
  case inr.inr.inr.inl => exact .inr (.inr hr)
  all_goals exact .inl (by simp)

theorem execWord_ecode_cases {w : Word} {s t : State} (h : execWord w s = .next t) :
    t.ecode = s.ecode ∨ t.ecode = .none ∨ Raised s t := by
  unfold execWord at h
  cases hd : decode w with
  | legal i => rw [hd] at h; exact exec_ecode_cases h
  | illegal r =>
    rw [hd] at h
    rcases execIllegal_cases h with ⟨-, rfl⟩ | hr
    · exact .inl rfl
    · exact .inr (.inr hr)

/-- The block never raises PositionOutOfRange (00_scope.md R5). -/
theorem execWord_ecode_positionOutOfRange {w : Word} {s t : State} (h : execWord w s = .next t)
    (ht : t.ecode = .positionOutOfRange) : s.ecode = .positionOutOfRange := by
  rcases execWord_ecode_cases h with he | he | hr
  · rw [← he, ht]
  · rw [ht] at he; cases he
  · exact absurd ht hr.ecode_ne_positionOutOfRange

/-- Settles O54: flipping is a `List.modify` at index `p - 1`, and the cases of a command leave no way to code 3. -/
theorem injectErrorFlipsOneBit : Obligations.InjectErrorFlipsOneBit := by
  unfold Obligations.InjectErrorFlipsOneBit
  refine ⟨fun cw p => ⟨injectError_of_outside, fun h₁ h₂ => ?_⟩, fun w s t => execWord_ecode_positionOutOfRange, rfl⟩
  exact ⟨flipAt (p - 1) cw, injectError_of_inside h₁ h₂, flipAt_length _ _, flipAt_getElem?_self _ _,
    fun j hj => flipAt_getElem?_of_ne hj cw⟩

end Sys2Proof.Machine
end

section
/-! PROOFS. Every step keeps the invariant of the block's state (10_state.md R37). -/

namespace Sys2Proof.Machine

/-! ### Bounds of the datapath -/

theorem shiftIn_lt {r : Reg64} {n : Nat} (b : Bool) (h : r.toNat < 2 ^ n) : (shiftIn r b).toNat < 2 ^ (n + 1) := by
  have hb : b.toNat < 2 := b.toNat_lt
  rw [shiftIn_toNat, pow_succ]
  exact lt_of_le_of_lt (Nat.mod_le _ _) (by omega)

theorem foldl_shiftIn_lt (bs : Bits) {r : Reg64} {n : Nat} (h : r.toNat < 2 ^ n) :
    (bs.foldl shiftIn r).toNat < 2 ^ (n + bs.length) := by
  induction bs generalizing r n with
  | nil => exact h
  | cons b bs ih =>
    rw [List.foldl_cons, List.length_cons, Nat.add_comm bs.length, ← Nat.add_assoc]
    exact ih (shiftIn_lt b h)

theorem divSteps_lt (bs : Bits) {r g : Reg64} {n : Nat} (h : r.toNat < 2 ^ n) : (divSteps r g n bs).toNat < 2 ^ n := by
  induction bs generalizing r with
  | nil => exact h
  | cons b bs ih => exact ih (divStep_lt r g n b)

theorem lowBits_toNat_lt (n : Nat) (r : Reg64) : (lowBits n r).toNat < 2 ^ n := by
  rw [lowBits_toNat]
  exact Nat.mod_lt _ (Nat.two_pow_pos n)

theorem lowBits_eq_self {n : Nat} {r : Reg64} (h : r.toNat < 2 ^ n) : lowBits n r = r :=
  BitVec.eq_of_toNat_eq (by rw [lowBits_toNat, Nat.mod_eq_of_lt h])

theorem toNat_lt_of_leading_zero {r : Reg64} {n : Nat} (h : r.toNat < 2 ^ (n + 1)) (hb : r.getLsbD n = false) :
    r.toNat < 2 ^ n := by
  refine Nat.lt_pow_two_of_testBit _ fun i hi => ?_
  rcases hi.lt_or_eq with hlt | rfl
  · exact Nat.testBit_lt_two_pow (h.trans_le (Nat.pow_le_pow_right (by decide) hlt))
  · exact hb

/-- Reduce clears the leading bit (40_polynomial_register.md R101), by the leading bit of the generator. -/
theorem reduce_lt {r g : Reg64} {n : Nat} (hr : r.toNat < 2 ^ n) (hg : g.toNat < 2 ^ n) (hn : 1 ≤ n)
    (hb : g.getLsbD (n - 1) = true) : (reduce r g n).toNat < 2 ^ (n - 1) := by
  obtain ⟨m, rfl⟩ := Nat.exists_eq_add_of_le' hn
  rw [Nat.add_sub_cancel] at *
  cases hm : r.getLsbD m with
  | false => simpa [reduce, hm] using toNat_lt_of_leading_zero hr hm
  | true =>
    have hx : (r ^^^ g).toNat < 2 ^ (m + 1) := by rw [BitVec.toNat_xor]; exact Nat.xor_lt_two_pow hr hg
    simpa [reduce, hm] using toNat_lt_of_leading_zero hx (by simp [hm, hb])

/-! ### The saturating counter -/

theorem sat32_sat32_add_one (n : Nat) : sat32 (sat32 n + 1) = sat32 (n + 1) := by simp only [sat32]; omega

theorem toNat_ofNat_sat32 (n : Nat) : (BitVec.ofNat 32 (sat32 n)).toNat = sat32 n := by
  have := sat32_le n
  rw [BitVec.toNat_ofNat, Nat.mod_eq_of_lt (by omega)]

/-! ### What END leaves in encode mode -/

section
variable (s : State)

@[simp] theorem encFinish_phase : (encFinish s).phase = .done := rfl
@[simp] theorem encFinish_mode : (encFinish s).mode = s.mode := rfl
@[simp] theorem encFinish_gen : (encFinish s).gen = s.gen := rfl
@[simp] theorem encFinish_glen : (encFinish s).glen = s.glen := rfl
@[simp] theorem encFinish_reg : (encFinish s).reg = checksumReg s := rfl
@[simp] theorem encFinish_res : (encFinish s).res = lowBits (s.glen.toNat - 1) (checksumReg s) := rfl
@[simp] theorem encFinish_hasErr : (encFinish s).hasErr = s.hasErr := rfl
@[simp] theorem encFinish_cout :
    (encFinish s).cout = s.cout ++ bitsOf (s.glen.toNat - 1) (encFinish s).res.toNat := rfl

/-- The message bits at DONE are those that stood in COUT before END. -/
theorem messageBits_encFinish : messageBits (encFinish s) = s.cout := by simp [messageBits]

end

/-! ### Consequences of the invariant -/

theorem generatorOk_iff {s : State} :
    generatorOk s = true ↔ 2 ≤ s.glen.toNat ∧ s.gen.getLsbD (s.glen.toNat - 1) = true := by simp [generatorOk]

theorem config_valid_iff {c : Config} : c.valid = true ↔ 2 ≤ c.nmax ∧ c.nmax ≤ 64 := by simp [Config.valid]

section
variable {s t : State}

theorem Inv.ecode_eq_none (h : Inv s) (hp : s.phase ≠ .error) : s.ecode = .none :=
  not_not.mp fun he => hp (h.ecodePhase.mp he)

/-- A reduced register is below `2^(N-1)` once the generator is validated. -/
theorem Inv.reduce_lt (h : Inv s) (hg : generatorOk s = true) {r : Reg64} (hr : r.toNat < 2 ^ s.glen.toNat) :
    (reduce r s.gen s.glen.toNat).toNat < 2 ^ (s.glen.toNat - 1) := by
  obtain ⟨hn, hb⟩ := generatorOk_iff.mp hg
  exact Machine.reduce_lt hr h.genBound (by omega) hb

theorem Inv.checksumReg_lt (h : Inv s) (hg : generatorOk s = true) :
    (checksumReg s).toNat < 2 ^ (s.glen.toNat - 1) := h.reduce_lt hg (divSteps_lt _ h.regBound)

/-! ### The operations keep the invariant -/

theorem inv_resetOf {c : Config} (h : c.valid = true) : Inv (State.resetOf c) where
  configOk := h
  genBound := by simp [State.resetOf]
  regBound := by simp [State.resetOf]
  glenBound := Nat.zero_le _
  idleClear _ := by simp [State.resetOf]
  generatorValid := nofun
  genClear := nofun
  dataClear := nofun
  doneResult := nofun
  doneHasErr := nofun
  detSilent := nofun
  encData := nofun
  encDone := nofun
  ecodePhase := by simp [State.resetOf]
  ecodeRange := nofun

/-- The invariant speaks of no word in progress and of nothing on the host's side. -/
theorem Inv.outside (h : Inv s) (p : Option Word) (as : List HostAction) (l : Bool) (es : List ReadEvent) (n : Nat) :
    Inv { s with inProgress := p, host := as, cwReady := l, rdTrace := es, draws := n } where
  __ := h

theorem inv_errorEntry (h : Inv s) {e : ErrorCode} (hn : e ≠ .none) (hr : e ≠ .positionOutOfRange) :
    Inv (errorEntry e s) where
  __ := h
  idleClear := nofun
  generatorValid := nofun
  genClear := nofun
  dataClear := nofun
  doneResult := nofun
  doneHasErr := nofun
  detSilent := nofun
  encData := nofun
  encDone := nofun
  ecodePhase := by simp [hn]
  ecodeRange := hr

theorem Raised.inv (hr : Raised s t) (h : Inv s) : Inv t := by
  obtain ⟨e, -, hn, hc, rfl⟩ := hr
  exact inv_errorEntry h hn hc

theorem inv_openOperation (m : Mode) (h : Inv s) : Inv (openOperation m s) where
  configOk := h.configOk
  genBound := by simp
  regBound := by simp
  glenBound := Nat.zero_le _
  idleClear := nofun
  generatorValid := nofun
  genClear _ := by simp
  dataClear := nofun
  doneResult := nofun
  doneHasErr := nofun
  detSilent := nofun
  encData := nofun
  encDone := nofun
  ecodePhase := by simp
  ecodeRange := nofun

theorem glen_appendGenerator_toNat {bs : Bits} (h : Inv s) (hl : s.glen.toNat + bs.length ≤ s.config.nmax) :
    (appendGenerator bs s).glen.toNat = s.glen.toNat + bs.length := by
  obtain ⟨-, hmax⟩ := config_valid_iff.mp h.configOk
  simp
  omega

theorem inv_appendGenerator {bs : Bits} (h : Inv s) (hp : s.phase = .gen)
    (hl : s.glen.toNat + bs.length ≤ s.config.nmax) : Inv (appendGenerator bs s) where
  __ := h
  genBound := glen_appendGenerator_toNat h hl ▸ foldl_shiftIn_lt bs h.genBound
  regBound := by simp [(h.genClear hp).1]
  glenBound := glen_appendGenerator_toNat h hl ▸ hl
  idleClear := by simp [hp]
  generatorValid := by simp [hp]
  doneResult := by simp [hp]
  encData := by simp [hp]
  encDone := by simp [hp]

/-- Entering DATA: from GEN the message so far is empty. -/
theorem inv_enterData (h : Inv s) (hf : Feeding s) : Inv (enterData s) := by
  rcases hf with hp | ⟨hp, hg⟩
  · have he : enterData s = s := by rw [enterData, ← hp]
    exact he.symm ▸ h
  · obtain ⟨hreg, hlen, hres, herr, hcout⟩ := h.genClear hp
    exact {
      __ := h
      idleClear := nofun
      generatorValid := fun _ => hg
      genClear := nofun
      dataClear := fun _ => ⟨hres, herr⟩
      doneResult := nofun
      doneHasErr := nofun
      detSilent := fun _ _ => hcout
      encData := fun _ _ => by simp [hreg, hlen, hcout, sat32]
      encDone := nofun
      ecodePhase := by simp [h.ecode_eq_none (by simp [hp])] }

theorem inv_feedBit (b : Bool) (h : Inv s) (hp : s.phase = .data) : Inv (feedBit s b) where
  __ := h
  regBound := divStep_lt s.reg s.gen s.glen.toNat b
  idleClear := by simp [hp]
  genClear := by simp [hp]
  doneResult := by simp [hp]
  detSilent hd hm := (feedBit_cout_det s b hm).trans (h.detSilent hd hm)
  encData _ hm := by
    obtain ⟨hlen, hreg⟩ := h.encData hp hm
    rw [feedBit_cout_enc s b hm]
    constructor
    · rw [feedBit_len, toNat_ofNat_sat32, hlen, sat32_sat32_add_one, List.length_append, List.length_singleton]
    · rw [feedBit_reg, feedBit_gen, feedBit_glen, divSteps_append, ← hreg]
      rfl
  encDone := by simp [hp]

theorem inv_feedBits (bs : Bits) (h : Inv s) (hp : s.phase = .data) : Inv (feedBits bs s) := by
  induction bs generalizing s with
  | nil => exact h
  | cons b bs ih => exact ih (inv_feedBit b h hp) hp

/-- EncFinish: the checksum is the remainder of the message in COUT, extended by N-1 zeros (R144). -/
theorem inv_encFinish (h : Inv s) (hp : s.phase = .data) (hm : s.mode = .enc) : Inv (encFinish s) := by
  have hg := h.generatorValid (.inl hp)
  have hlt := h.checksumReg_lt hg
  obtain ⟨hlen, hreg⟩ := h.encData hp hm
  exact {
    __ := h
    regBound := hlt.trans_le (Nat.pow_le_pow_right (by decide) (Nat.sub_le _ _))
    idleClear := nofun
    generatorValid := fun _ => hg
    genClear := nofun
    dataClear := nofun
    doneResult := fun _ => ⟨lowBits_toNat_lt _ _, (lowBits_eq_self hlt).symm⟩
    doneHasErr := fun _ => by simp [hm, (h.dataClear hp).2]
    detSilent := by simp [hm]
    encData := nofun
    encDone := fun _ _ => by
      rw [messageBits_encFinish]
      refine ⟨by simp, encFinish_cout s, hlen, ?_⟩
      rw [encFinish_res, encFinish_gen, encFinish_glen, checksumReg, remReg, divSteps_append, ← hreg]
    ecodePhase := by simp [h.ecode_eq_none (by simp [hp])] }

/-- DetFinish: the syndrome is the reduced register (R160). -/
theorem inv_detFinish (h : Inv s) (hp : s.phase = .data) (hm : s.mode = .det) :
    Inv (writeHasErr (storeResult (reduce s.reg s.gen s.glen.toNat) s)) := by
  have hg := h.generatorValid (.inl hp)
  have hlt := h.reduce_lt hg h.regBound
  exact {
    __ := h
    regBound := hlt.trans_le (Nat.pow_le_pow_right (by decide) (Nat.sub_le _ _))
    idleClear := nofun
    generatorValid := fun _ => hg
    genClear := nofun
    dataClear := nofun
    doneResult := fun _ => ⟨lowBits_toNat_lt _ _, (lowBits_eq_self hlt).symm⟩
    doneHasErr := fun _ => by simp [hm]
    detSilent := fun _ _ => h.detSilent (.inl hp) hm
    encData := nofun
    encDone := by simp [hm]
    ecodePhase := by simp [h.ecode_eq_none (by simp [hp])] }

/-! ### Commands, words and steps keep the invariant -/

/-- The body of a command that carries generator bits (R123, R124). -/
theorem exec_of_generatorBits {i : Instr} {bs : Bits} (hb : generatorBits i = some bs) :
    exec i s = perform .generator (loadGenerator bs) s := by
  cases i with
  | gbits k v => cases hb; rfl
  | gchr c =>
    obtain ⟨b, hs, rfl⟩ := Option.map_eq_some_iff.mp hb
    simp [exec, execGchr, perform, gchrEffect, hs]
  | nop | bege | begd | dbits | dchr | finish => cases hb

/-- The generator command that appends its bits had room for them: an overflow raises an error (R123). -/
theorem exec_append_fits {i : Instr} {bs : Bits} (hb : generatorBits i = some bs) (hp : s.phase = .gen)
    (h : exec i s = .next (appendGenerator bs s)) : s.glen.toNat + bs.length ≤ s.config.nmax := by
  rw [exec_of_generatorBits hb, perform_yes _ (by rw [hp]; rfl)] at h
  rcases loadGenerator_cases bs s with ⟨-, hl⟩ | ⟨hl, -⟩
  · rw [hl] at h
    have he : (errorEntry .capacityExceeded s).phase = (appendGenerator bs s).phase :=
      congrArg State.phase (Host.Outcome.next.inj h)
    simp [hp] at he
  · exact hl

theorem exec_inv {i : Instr} (hi : Inv s) (h : exec i s = .next t) : Inv t := by
  rcases exec_cases h with ⟨-, rfl⟩ | ⟨-, rfl⟩ | ⟨-, rfl⟩ | ⟨-, -, hr⟩ | ⟨bs, hb, hp, rfl⟩ | ⟨bs, -, hf, rfl⟩ |
    ⟨-, hm, hf, rfl⟩ | ⟨-, hm, hf, -, rfl⟩
  · exact hi
  · exact inv_openOperation .enc hi
  · exact inv_openOperation .det hi
  · exact hr.inv hi
  · exact inv_appendGenerator hi hp (exec_append_fits hb hp h)
  · exact inv_feedBits bs (inv_enterData hi hf) rfl
  · exact inv_encFinish (inv_enterData hi hf) rfl hm
  · exact inv_detFinish (inv_enterData hi hf) rfl hm

/-- What a word can do: the effect of its command, or nothing in ERROR, or an error (R127, R203, R205). -/
theorem execWord_cases {w : Word} (h : execWord w s = .next t) :
    (∃ i, decode w = .legal i ∧ exec i s = .next t) ∨ (s.phase = .error ∧ t = s) ∨ Raised s t := by
  unfold execWord at h
  cases hd : decode w with
  | legal i => rw [hd] at h; exact .inl ⟨i, rfl, h⟩
  | illegal r => rw [hd] at h; exact .inr (execIllegal_cases h)

theorem execWord_inv {w : Word} (hi : Inv s) (h : execWord w s = .next t) : Inv t := by
  rcases execWord_cases h with ⟨i, -, he⟩ | ⟨-, rfl⟩ | hr
  · exact exec_inv hi he
  · exact hi
  · exact hr.inv hi

end

/-- Settles O51: the host's actions touch nothing the invariant speaks of, reset establishes it, and every case of a
command keeps it. -/
theorem stepKeepsInvariant : Obligations.StepKeepsInvariant := by
  unfold Obligations.StepKeepsInvariant
  intro s t hi h
  obtain ⟨-, ⟨a, rest, -, rfl⟩ | ⟨rest, -, rfl⟩ | ⟨l, rest, -, rfl⟩ | ⟨-, w, u, -, hu, rfl⟩ | ⟨-, w, rest, -, rfl⟩ |
    ⟨-, rest, -, rfl⟩ | ⟨-, -, rfl⟩⟩ := step_cases h
  · exact hi.outside ..
  · exact (inv_resetOf hi.configOk).outside ..
  · exact hi.outside ..
  · split
    · exact hi
    · exact execWord_inv (hi.outside ..) hu
  · exact hi.outside ..
  · exact hi.outside ..
  · exact hi

end Sys2Proof.Machine
end

section
/-! PROOFS. The fields of STATUS (10_state.md R33), and the writers of PHASE and MODE (R22, R23). -/

namespace Sys2Proof.Machine

/-! ### The fields of STATUS -/

theorem getLsbD_flagWord (b : Bool) (i : Nat) : (flagWord b).getLsbD i = (decide (i = 0) && b) := by
  cases i <;> simp [flagWord]

section
variable (s : State)

/-- STATUS bit by bit: its fields stand side by side and do not overlap. -/
theorem getLsbD_statusWord (i : Nat) :
    (statusWord s).getLsbD i =
      if i < 3 then (phaseCode s.phase).getLsbD i
      else if i < 4 then (modeCode s.mode).getLsbD (i - 3)
      else if i = 4 then s.valid
      else if i = 5 then s.hasErr
      else if i = 6 then s.err
      else if i = 7 then s.busy
      else (errorCodeBits s.ecode).getLsbD (i - 8) := by
  have hp := (phaseCode s.phase).getLsbD_of_ge i
  have hm := (modeCode s.mode).getLsbD_of_ge (i - 3)
  have he := (errorCodeBits s.ecode).getLsbD_of_ge (i - 8)
  simp only [statusWord, BitVec.getLsbD_or, BitVec.getLsbD_shiftLeft, BitVec.getLsbD_setWidth, getLsbD_flagWord]
  grind

theorem getLsbD_statusWord_from_eight (i : Nat) :
    (statusWord s).getLsbD (8 + i) = (errorCodeBits s.ecode).getLsbD i := by
  rw [getLsbD_statusWord]
  grind

theorem statusWord_phase : (statusWord s).extractLsb' 0 3 = phaseCode s.phase :=
  BitVec.eq_of_getLsbD_eq fun i hi => by simp [hi, getLsbD_statusWord]

theorem statusWord_mode : (statusWord s).extractLsb' 3 1 = modeCode s.mode :=
  BitVec.eq_of_getLsbD_eq fun i hi => by simp [hi, getLsbD_statusWord, show ¬ 4 ≤ 3 + i by omega]

theorem statusWord_ecode : (statusWord s).extractLsb' 8 4 = errorCodeBits s.ecode :=
  BitVec.eq_of_getLsbD_eq fun i hi => by simp [hi, getLsbD_statusWord_from_eight]

theorem statusWord_reserved : (statusWord s).extractLsb' 12 20 = 0 :=
  BitVec.eq_of_getLsbD_eq fun i hi => by
    have hz := (errorCodeBits s.ecode).getLsbD_of_ge (4 + i) (by omega)
    rw [← getLsbD_statusWord_from_eight, ← Nat.add_assoc] at hz
    simp [hz]

theorem valid_iff : s.valid = true ↔ s.phase = .done := decide_eq_true_iff

theorem err_iff : s.err = true ↔ s.phase = .error := decide_eq_true_iff

end

/-- Settles O35: STATUS bit by bit gives each field. -/
theorem statusWordFields : Obligations.StatusWordFields := by
  unfold Obligations.StatusWordFields
  refine ⟨fun s => ⟨statusWord_phase s, statusWord_mode s, ?_, getLsbD_statusWord s 5, ?_, getLsbD_statusWord s 7,
    statusWord_ecode s, statusWord_reserved s⟩, by decide, by decide⟩
  · exact getLsbD_statusWord s 4 ▸ valid_iff s
  · exact getLsbD_statusWord s 6 ▸ err_iff s

/-! ### The writers of PHASE -/

section
variable {s t : State}

@[simp] theorem feedBits_phase (bs : Bits) (s : State) : (feedBits bs s).phase = s.phase := by rw [feedBits_frame]

@[simp] theorem feedBits_mode (bs : Bits) (s : State) : (feedBits bs s).mode = s.mode := by rw [feedBits_frame]

theorem Raised.phase (h : Raised s t) : t.phase = .error := by
  obtain ⟨e, -, -, -, rfl⟩ := h
  rfl

theorem Raised.mode (h : Raised s t) : t.mode = s.mode := by
  obtain ⟨e, -, -, -, rfl⟩ := h
  rfl

/-- The codes of PHASE end at 4 (R22). -/
theorem phaseCode_le_four (p : Phase) : (phaseCode p).toNat ≤ 4 := by cases p <;> decide

theorem exec_phase_cases {i : Instr} (h : exec i s = .next t) (hne : t.phase ≠ s.phase) :
    (t.phase = .gen ∧ (i = .bege ∨ i = .begd)) ∨
    (t.phase = .data ∧ s.phase = .gen ∧ (dataBits i).isSome = true) ∨
    (t.phase = .done ∧ i = .finish) ∨
    t.phase = .error := by
  rcases exec_cases h with ⟨-, rfl⟩ | ⟨hi, rfl⟩ | ⟨hi, rfl⟩ | ⟨-, -, hr⟩ | ⟨bs, -, -, rfl⟩ | ⟨bs, hb, hf, rfl⟩ |
    ⟨hi, -, -, rfl⟩ | ⟨hi, -, -, -, rfl⟩
  · exact absurd rfl hne
  · exact .inl ⟨rfl, .inl hi⟩
  · exact .inl ⟨rfl, .inr hi⟩
  · exact .inr (.inr (.inr hr.phase))
  · exact absurd rfl hne
  · rcases hf with hp | ⟨hp, -⟩
    · simp [hp] at hne
    · exact .inr (.inl ⟨feedBits_phase bs _, hp, by simp [hb]⟩)
  · exact .inr (.inr (.inl ⟨rfl, hi⟩))
  · exact .inr (.inr (.inl ⟨rfl, hi⟩))

/-- No word leads to IDLE from another phase. -/
theorem execWord_phase_idle {w : Word} (h : execWord w s = .next t) (ht : t.phase = .idle) : s.phase = .idle := by
  rcases execWord_cases h with ⟨i, -, he⟩ | ⟨-, rfl⟩ | hr
  · by_contra hs
    have hc := exec_phase_cases he (ht ▸ Ne.symm hs)
    simp [ht] at hc
  · exact ht
  · simp [hr.phase] at ht

theorem step_phase_idle (h : step s = .next t) (ht : t.phase = .idle) :
    s.phase = .idle ∨ s.host.head? = some .reset := by
  obtain ⟨-, ⟨a, rest, -, rfl⟩ | ⟨rest, hh, rfl⟩ | ⟨l, rest, -, rfl⟩ | ⟨-, w, u, -, hu, rfl⟩ | ⟨-, w, rest, -, rfl⟩ |
    ⟨-, rest, -, rfl⟩ | ⟨-, -, rfl⟩⟩ := step_cases h
  case inr.inl => exact .inr (by simp [hh])
  case inr.inr.inr.inl =>
    split at ht
    · exact .inl ht
    · exact .inl (execWord_phase_idle hu ht :)
  all_goals exact .inl ht

/-! ### The writers of MODE -/

theorem exec_mode {i : Instr} (h : exec i s = .next t) (he : i ≠ .bege) (hd : i ≠ .begd) : t.mode = s.mode := by
  rcases exec_cases h with ⟨-, rfl⟩ | ⟨hi, -⟩ | ⟨hi, -⟩ | ⟨-, -, hr⟩ | ⟨bs, -, -, rfl⟩ | ⟨bs, -, -, rfl⟩ |
    ⟨-, -, -, rfl⟩ | ⟨-, -, -, -, rfl⟩
  · rfl
  · exact absurd hi he
  · exact absurd hi hd
  · exact hr.mode
  · rfl
  · exact feedBits_mode bs _
  · rfl
  · rfl

theorem decodeZ_eq_legal {w : Word} {i j : Instr} (h : decodeZ w i = .legal j) : w.extractLsb' 0 28 = 0 ∧ i = j := by
  unfold decodeZ at h
  split at h
  · exact ⟨‹_›, Decoded.legal.inj h⟩
  · cases h

theorem decodeB_eq_legal {w : Word} {mk : Nat → BitVec 16 → Instr} {j : Instr} (h : decodeB w mk = .legal j) :
    ∃ k v, mk k v = j := by
  unfold decodeB at h
  split at h
  · cases h
  · dsimp only at h
    split at h
    · cases h
    · exact ⟨_, _, Decoded.legal.inj h⟩

theorem decodeC_eq_legal {w : Word} {mk : BitVec 8 → Instr} {j : Instr} (h : decodeC w mk = .legal j) :
    ∃ c, mk c = j := by
  unfold decodeC at h
  split at h
  · cases h
  · exact ⟨_, Decoded.legal.inj h⟩

/-- A format Z word is its OP field above 28 zeros (30_encoding.md R71). -/
theorem toNat_of_formatZ {w : Word} {op : Nat} (ho : (opField w).toNat = op) (hz : w.extractLsb' 0 28 = 0) :
    w.toNat = op * 2 ^ 28 := by
  have hl : w.toNat % 2 ^ 28 = 0 := by simpa using congrArg BitVec.toNat hz
  have hw := w.isLt
  simp only [opField, BitVec.extractLsb'_toNat, Nat.shiftRight_eq_div_pow] at ho
  omega

/-- BEGE and BEGD have one word each (R78). -/
theorem eq_encode_of_decode_opening {w : Word} {i : Instr} (h : decode w = .legal i) (hc : classOf i = .opening) :
    w = encode i := by
  unfold decode at h
  split at h
  case h_2 ho | h_3 ho =>
    obtain ⟨hz, rfl⟩ := decodeZ_eq_legal h
    exact BitVec.eq_of_toNat_eq (toNat_of_formatZ ho hz)
  case h_1 | h_8 =>
    obtain ⟨-, rfl⟩ := decodeZ_eq_legal h
    cases hc
  case h_4 | h_6 =>
    obtain ⟨k, v, rfl⟩ := decodeB_eq_legal h
    cases hc
  case h_5 | h_7 =>
    obtain ⟨c, rfl⟩ := decodeC_eq_legal h
    cases hc
  case h_9 => cases h

theorem execWord_mode {w : Word} (h : execWord w s = .next t) (hne : t.mode ≠ s.mode) :
    w = encode .bege ∨ w = encode .begd := by
  rcases execWord_cases h with ⟨i, hd, he⟩ | ⟨-, rfl⟩ | hr
  · by_cases hb : i = .bege
    · exact .inl (hb ▸ eq_encode_of_decode_opening hd (hb ▸ rfl))
    by_cases hg : i = .begd
    · exact .inr (hg ▸ eq_encode_of_decode_opening hd (hg ▸ rfl))
    exact absurd (exec_mode he hb hg) hne
  · exact absurd rfl hne
  · exact absurd hr.mode hne

theorem step_mode (h : step s = .next t) (hne : t.mode ≠ s.mode) :
    s.host.head? = some .reset ∨ s.inProgress = some (encode .bege) ∨ s.inProgress = some (encode .begd) := by
  obtain ⟨-, ⟨a, rest, -, rfl⟩ | ⟨rest, hh, rfl⟩ | ⟨l, rest, -, rfl⟩ | ⟨-, w, u, hw, hu, rfl⟩ | ⟨-, w, rest, -, rfl⟩ |
    ⟨-, rest, -, rfl⟩ | ⟨-, -, rfl⟩⟩ := step_cases h
  case inr.inl => exact .inl (by simp [hh])
  case inr.inr.inr.inl =>
    split at hne
    · exact absurd rfl hne
    · simpa [hw] using Or.inr (execWord_mode hu hne)
  all_goals exact absurd rfl hne

end

/-- Settles O48: PHASE moves only where a case of a command moves it, and IDLE is reached by reset alone. -/
theorem phaseWriters : Obligations.PhaseWriters := by
  unfold Obligations.PhaseWriters
  refine ⟨by decide, fun s => ⟨statusWord_phase s, ?_⟩, rfl, fun i s t => exec_phase_cases, fun s t => step_phase_idle⟩
  exact statusWord_phase s ▸ phaseCode_le_four s.phase

/-- Settles O49: every command but BEGE and BEGD keeps MODE, and each of these two has one word. -/
theorem modeWriters : Obligations.ModeWriters := by
  unfold Obligations.ModeWriters
  refine ⟨by decide, statusWord_mode, fun s t => ⟨fun h => ?_, fun h => ?_⟩, fun i s t => exec_mode,
    fun s t => step_mode⟩
  · cases h; rfl
  · cases h; rfl

end Sys2Proof.Machine
end

section
/-! PROOFS. The ports (20_memory.md R51 to R55): the read map, the read port, the command port, and back-pressure on
the codeword output. -/

namespace Sys2Proof.Machine

/-! ### The read map -/

section
variable (s : State)

theorem toNat_lowWord (r : Reg64) : (r.extractLsb' 0 32).toNat = r.toNat % 2 ^ 32 := by simp

theorem toNat_highWord (r : Reg64) : (r.extractLsb' 32 32).toNat = r.toNat / 2 ^ 32 := by
  have hr := r.isLt
  rw [BitVec.extractLsb'_toNat, Nat.shiftRight_eq_div_pow]
  omega

theorem readMap_glen : (readMap s 1).toNat = s.glen.toNat :=
  BitVec.toNat_setWidth_of_le (by decide)

/-- PARAM holds NMAX, which a legal configuration bounds by 64 (R53). -/
theorem readMap_param (h : s.config.valid = true) : (readMap s 9).toNat = s.config.nmax := by
  have hn : s.config.nmax < 2 ^ 32 := by have := (config_valid_iff.1 h).2; omega
  exact (BitVec.toNat_ofNat _ _).trans (Nat.mod_eq_of_lt hn)

/-- The reserved addresses read as 0 (R54). -/
theorem readMap_reserved {a : BitVec 4} (h : 10 ≤ a.toNat) : readMap s a = 0 := by
  unfold readMap
  split
  case h_11 => rfl
  all_goals omega

end

/-- Settles O36: each address reads its arm of the map, and a 64-bit register is its low and its high word. -/
theorem readMapWords : Obligations.ReadMapWords := by
  unfold Obligations.ReadMapWords
  exact ⟨fun s => ⟨rfl, readMap_glen s, rfl, toNat_lowWord s.res, toNat_highWord s.res, toNat_lowWord s.gen,
    toNat_highWord s.gen, toNat_lowWord s.reg, toNat_highWord s.reg, readMap_param s, fun _ => readMap_reserved s⟩, rfl⟩

/-! ### The step, one equation per host action -/

section
variable {s t : State} {rest : List HostAction}

theorem dropAction_eq {x : HostAction} (h : s.host = x :: rest) : dropAction s = { s with host := rest } := by
  rw [dropAction, h, List.tail_cons]

/-! A word offered, a wait and an empty script are served by no port but the command port (R51). -/

theorem anyTimeAction_write {w : Word} (h : s.host = .write w :: rest) : anyTimeAction s = none := by
  rw [anyTimeAction, h]

theorem anyTimeAction_await (h : s.host = .await :: rest) : anyTimeAction s = none := by rw [anyTimeAction, h]

theorem anyTimeAction_nil (h : s.host = []) : anyTimeAction s = none := by rw [anyTimeAction, h]

theorem step_anyTime (hv : s.config.valid = true) (ha : anyTimeAction s = some t) : step s = .next t := by
  rw [step_valid hv, cycle, ha]

theorem step_boundary (hv : s.config.valid = true) (ha : anyTimeAction s = none) (hi : s.inProgress = none) :
    step s = .next (boundaryStep s) := by
  rw [step_valid hv, cycle, ha, hi]

theorem step_complete {w : Word} (hv : s.config.valid = true) (ha : anyTimeAction s = none)
    (hi : s.inProgress = some w) (h : execWord w (retire s) = .next t) :
    step s = .next (if stalled s t then s else t) := by
  rw [step_valid hv, cycle, ha, hi]
  exact completeCommand_eq h

theorem step_read {a : BitVec 4} (hv : s.config.valid = true) (hh : s.host = .read a :: rest) :
    step s = .next (serveRead a { s with host := rest }) := by
  rw [← dropAction_eq hh]
  exact step_anyTime hv (by rw [anyTimeAction, hh])

theorem step_setCwReady {l : Bool} (hv : s.config.valid = true) (hh : s.host = .setCwReady l :: rest) :
    step s = .next (driveCwReady l { s with host := rest }) := by
  rw [← dropAction_eq hh]
  exact step_anyTime hv (by rw [anyTimeAction, hh])

theorem step_write {w : Word} (hv : s.config.valid = true) (hi : s.inProgress = none)
    (hh : s.host = .write w :: rest) : step s = .next (acceptWord w { s with host := rest }) := by
  rw [step_boundary hv (anyTimeAction_write hh) hi, boundaryStep, hh, dropAction_eq hh]

theorem step_await (hv : s.config.valid = true) (hi : s.inProgress = none) (hh : s.host = .await :: rest) :
    step s = .next { s with host := rest } := by
  rw [step_boundary hv (anyTimeAction_await hh) hi, boundaryStep, hh, dropAction_eq hh]

/-- A block with nothing to do holds its state (60_exceptions.md R213). -/
theorem step_idle (hv : s.config.valid = true) (hi : s.inProgress = none) (hh : s.host = []) : step s = .next s := by
  rw [step_boundary hv (anyTimeAction_nil hh) hi, boundaryStep, hh]

/-- At a command boundary the read port answers the read map and draws no free value (R52). -/
theorem serveRead_boundary (a : BitVec 4) (hi : s.inProgress = none) :
    serveRead a s = { s with rdTrace := s.rdTrace ++ [{ addr := a, data := readMap s a }] } := by
  have ho : readIsOpen s a = false := by rw [readIsOpen, State.busy, hi]; rfl
  simp [serveRead, portWord, ho]

end

/-- Settles O37: with BUSY = 0 the read is not open, so the port answers the read map. -/
theorem readHasNoSideEffect : Obligations.ReadHasNoSideEffect := by
  unfold Obligations.ReadHasNoSideEffect
  intro s a rest hv hi hh
  rw [step_read hv hh, serveRead_boundary (s := { s with host := rest }) a hi]
  rfl

/-- Settles O57, by the step's equations for a change of cw_ready, a wait and an empty script. -/
theorem pinChangeAndIdleSteps : Obligations.PinChangeAndIdleSteps := by
  unfold Obligations.PinChangeAndIdleSteps
  exact fun s hv => ⟨fun _ _ => step_setCwReady hv, fun _ => step_await hv, step_idle hv⟩

/-! ### What a command leaves outside and what it does to COUT -/

section
variable {s t : State}

theorem sameOutside_refl (s : State) : sameOutside s s := ⟨rfl, rfl, rfl, rfl, rfl, rfl⟩

theorem sameOutside_feedBits (bs : Bits) (s : State) : sameOutside s (feedBits bs s) := by
  rw [feedBits_frame]
  exact sameOutside_refl s

theorem Raised.sameOutside (h : Raised s t) : sameOutside s t := by
  obtain ⟨e, -, -, -, rfl⟩ := h
  exact sameOutside_refl s

theorem Raised.cout (h : Raised s t) : t.cout = s.cout := by
  obtain ⟨e, -, -, -, rfl⟩ := h
  rfl

/-- No command touches the command port, the configuration or the host's side. -/
theorem exec_sameOutside {i : Instr} (h : exec i s = .next t) : sameOutside s t := by
  rcases exec_cases h with ⟨-, rfl⟩ | ⟨-, rfl⟩ | ⟨-, rfl⟩ | ⟨-, -, hr⟩ | ⟨bs, -, -, rfl⟩ | ⟨bs, -, -, rfl⟩ |
    ⟨-, -, -, rfl⟩ | ⟨-, -, -, -, rfl⟩
  case inr.inr.inr.inl => exact hr.sameOutside
  case inr.inr.inr.inr.inr.inl => exact sameOutside_feedBits bs (enterData s)
  all_goals exact sameOutside_refl _

theorem execWord_sameOutside {w : Word} (h : execWord w s = .next t) : sameOutside s t := by
  rcases execWord_cases h with ⟨i, -, he⟩ | ⟨-, rfl⟩ | hr
  · exact exec_sameOutside he
  · exact sameOutside_refl t
  · exact hr.sameOutside

/-- Feeding echoes the bits in ENC and emits nothing in DET (R140). -/
theorem feedBits_cout_append (bs : Bits) (s : State) : ∃ cs, (feedBits bs s).cout = s.cout ++ cs := by
  rw [feedBits_cout]
  cases s.mode with
  | enc => exact ⟨bs, rfl⟩
  | det => exact ⟨[], (List.append_nil _).symm⟩

theorem cout_append_of_eq (h : t.cout = s.cout) : ∃ bs, t.cout = s.cout ++ bs := ⟨[], by rw [h, List.append_nil]⟩

/-- The writers of COUT (R30): opening an operation empties it, every other command appends to it. -/
theorem exec_cout {i : Instr} (h : exec i s = .next t) : t.cout = [] ∨ ∃ bs, t.cout = s.cout ++ bs := by
  rcases exec_cases h with ⟨-, rfl⟩ | ⟨-, rfl⟩ | ⟨-, rfl⟩ | ⟨-, -, hr⟩ | ⟨bs, -, -, rfl⟩ | ⟨bs, -, -, rfl⟩ |
    ⟨-, -, -, rfl⟩ | ⟨-, -, -, -, rfl⟩
  · exact .inr (cout_append_of_eq rfl)
  · exact .inl rfl
  · exact .inl rfl
  · exact .inr (cout_append_of_eq hr.cout)
  · exact .inr (cout_append_of_eq rfl)
  · exact .inr (feedBits_cout_append bs (enterData s))
  · exact .inr ⟨_, encFinish_cout (enterData s)⟩
  · exact .inr (cout_append_of_eq rfl)

theorem execWord_cout {w : Word} (h : execWord w s = .next t) : t.cout = [] ∨ ∃ bs, t.cout = s.cout ++ bs := by
  rcases execWord_cases h with ⟨i, -, he⟩ | ⟨-, rfl⟩ | hr
  · exact exec_cout he
  · exact .inr (cout_append_of_eq rfl)
  · exact .inr (cout_append_of_eq hr.cout)

theorem stalled_of_ready (h : s.cwReady = true) : stalled s t = false := by rw [stalled, h]; rfl

theorem stalled_iff_of_withheld (h : s.cwReady = false) : stalled s t = true ↔ s.cout.length < t.cout.length := by
  simp [stalled, h]

end

/-! ### The command port -/

/-- Settles O39: at a boundary the word is accepted; else the step completes the command in progress, which
changes neither the host's script nor the command port. -/
theorem commandPortHandshake : Obligations.CommandPortHandshake := by
  unfold Obligations.CommandPortHandshake
  refine fun s w rest hv hh => ⟨fun hi => step_write hv hi hh, fun x hi => ?_⟩
  obtain ⟨u, hu⟩ := execWord_next x (retire s)
  obtain ⟨hin, -, hhost, -, -, -⟩ := execWord_sameOutside hu
  refine ⟨_, step_complete hv (anyTimeAction_write hh) hi hu, ?_, fun hc => ?_⟩
  · split
    · exact hh
    · exact hhost.trans hh
  · rw [stalled_of_ready hc]
    exact ⟨hin, hu⟩

/-- Settles O40: with cw_ready = 0 a command stalls exactly when COUT would grow. -/
theorem outputBackPressure : Obligations.OutputBackPressure := by
  unfold Obligations.OutputBackPressure
  refine ⟨fun s t w rest hv hi hc hh hu => ?_, fun w s t => execWord_cout⟩
  rw [step_complete hv (anyTimeAction_await hh) hi hu]
  simp only [stalled_iff_of_withheld hc]

end Sys2Proof.Machine
end

section
/-! PROOFS. The command encoding (30_encoding.md R71 to R78): the fields of a word as numbers, the decode function, its
illegal words, and the round trip with the encoder. -/

namespace Sys2Proof.Machine

/-! ### The fields of a word as numbers -/

section
variable {w : Word}

theorem extractLsb'_eq_zero_iff (start len : Nat) :
    w.extractLsb' start len = 0 ↔ w.toNat / 2 ^ start % 2 ^ len = 0 := by
  simp [← BitVec.toNat_inj, Nat.shiftRight_eq_div_pow]

theorem opField_toNat (w : Word) : (opField w).toNat = w.toNat / 2 ^ 28 := by
  have hw := w.isLt
  rw [opField, BitVec.extractLsb'_toNat, Nat.shiftRight_eq_div_pow]
  omega

/-- A number is the format B word of OP, count and payload exactly when these are its fields (R71, R73, R74). -/
theorem formatB_fields_iff {n op k v : Nat} (hk : 1 ≤ k) (hk' : k ≤ 16) (hv : v < 2 ^ 16) :
    n = op * 2 ^ 28 + (k - 1) * 2 ^ 16 + v ↔
      n / 2 ^ 28 = op ∧ n % 2 ^ 28 / 2 ^ 20 = 0 ∧ n / 2 ^ 16 % 16 + 1 = k ∧ n % 2 ^ 16 = v := by
  omega

/-- A number is the format C word of OP and symbol code exactly when these are its fields (R71, R75). -/
theorem formatC_fields_iff {n op c : Nat} (hc : c < 2 ^ 8) :
    n = op * 2 ^ 28 + c ↔ n / 2 ^ 28 = op ∧ n % 2 ^ 28 / 2 ^ 8 = 0 ∧ n % 2 ^ 8 = c := by
  omega

theorem packedOk_iff {k : Nat} {v : BitVec 16} : packedOk k v = true ↔ 1 ≤ k ∧ k ≤ 16 ∧ v.toNat < 2 ^ k := by
  simp [packedOk, and_assoc]

/-! ### Decode, one equation per format -/

@[simp] theorem Decoded.command_legal (i : Instr) : (Decoded.legal i).command = some i := rfl

@[simp] theorem Decoded.command_illegal (why : IllegalWord) : (Decoded.illegal why).command = none := rfl

theorem Decoded.command_eq_some_iff {d : Decoded} {i : Instr} : d.command = some i ↔ d = .legal i := by
  cases d <;> simp

theorem Decoded.command_eq_none_iff {d : Decoded} : d.command = none ↔ ∃ why, d = .illegal why := by
  cases d <;> simp

theorem decodeZ_command (w : Word) (i : Instr) :
    (decodeZ w i).command = if w.toNat % 2 ^ 28 = 0 then some i else none := by
  simp only [decodeZ, extractLsb'_eq_zero_iff, pow_zero, Nat.div_one, apply_ite Decoded.command,
    Decoded.command_legal, Decoded.command_illegal]

theorem decodeB_command (w : Word) (mk : Nat → BitVec 16 → Instr) :
    (decodeB w mk).command =
      if w.toNat % 2 ^ 28 / 2 ^ 20 = 0 ∧
          (w.toNat / 2 ^ 16 % 16 + 1 < 16 → w.toNat % 2 ^ 16 / 2 ^ (w.toNat / 2 ^ 16 % 16 + 1) = 0)
      then some (mk (w.toNat / 2 ^ 16 % 16 + 1) (BitVec.ofNat 16 (w.toNat % 2 ^ 16))) else none := by
  have hrsv : w.extractLsb' 20 8 = 0 ↔ w.toNat % 2 ^ 28 / 2 ^ 20 = 0 := by
    rw [extractLsb'_eq_zero_iff]
    omega
  have hcount : (w.extractLsb' 16 4).toNat = w.toNat / 2 ^ 16 % 16 := by
    rw [BitVec.extractLsb'_toNat, Nat.shiftRight_eq_div_pow]
  have hpay : w.extractLsb' 0 16 = BitVec.ofNat 16 (w.toNat % 2 ^ 16) := BitVec.eq_of_toNat_eq (by simp)
  have hstray (k : Nat) : (k < 16 ∧ ¬BitVec.ofNat 16 (w.toNat % 2 ^ 16) >>> k = 0) ↔
      ¬(k < 16 → w.toNat % 2 ^ 16 / 2 ^ k = 0) := by
    rw [Classical.not_imp, ← BitVec.toNat_inj]
    simp [Nat.shiftRight_eq_div_pow]
  simp only [decodeB, hcount, hpay, ne_eq, hrsv, hstray, ite_not, apply_ite Decoded.command, ite_and,
    Decoded.command_legal, Decoded.command_illegal]

theorem decodeC_command (w : Word) (mk : BitVec 8 → Instr) :
    (decodeC w mk).command =
      if w.toNat % 2 ^ 28 / 2 ^ 8 = 0 then some (mk (BitVec.ofNat 8 (w.toNat % 2 ^ 8))) else none := by
  have hrsv : w.extractLsb' 8 20 = 0 ↔ w.toNat % 2 ^ 28 / 2 ^ 8 = 0 := by
    rw [extractLsb'_eq_zero_iff]
    omega
  have hch : w.extractLsb' 0 8 = BitVec.ofNat 8 (w.toNat % 2 ^ 8) := BitVec.eq_of_toNat_eq (by simp)
  simp only [decodeC, hch, ne_eq, hrsv, ite_not, apply_ite Decoded.command, Decoded.command_legal,
    Decoded.command_illegal]

/-- The opcode map (R72), by format: Z for OP 0, 1, 2 and 7, B for 3 and 5, C for 4 and 6, and none from 8 on. -/
theorem decode_cases (w : Word) :
    (∃ i, ((opField w).toNat = 0 ∧ i = .nop ∨ (opField w).toNat = 1 ∧ i = .bege ∨
      (opField w).toNat = 2 ∧ i = .begd ∨ (opField w).toNat = 7 ∧ i = .finish) ∧ decode w = decodeZ w i) ∨
    (∃ mk, ((opField w).toNat = 3 ∧ mk = .gbits ∨ (opField w).toNat = 5 ∧ mk = .dbits) ∧ decode w = decodeB w mk) ∨
    (∃ mk, ((opField w).toNat = 4 ∧ mk = .gchr ∨ (opField w).toNat = 6 ∧ mk = .dchr) ∧ decode w = decodeC w mk) ∨
    (8 ≤ (opField w).toNat ∧ decode w = .illegal .opcode) := by
  unfold decode
  generalize (opField w).toNat = op
  split
  case h_4 | h_6 => exact .inr (.inl ⟨_, by simp, rfl⟩)
  case h_5 | h_7 => exact .inr (.inr (.inl ⟨_, by simp, rfl⟩))
  case h_9 =>
    have ho : 8 ≤ op := by
      simp only [imp_false] at *
      omega
    exact .inr (.inr (.inr ⟨ho, rfl⟩))
  all_goals exact .inl ⟨_, by simp, rfl⟩

/-- Settles O2, format by format. -/
theorem decodeReadsTheFields : Obligations.DecodeReadsTheFields := by
  unfold Obligations.DecodeReadsTheFields
  intro w
  simp only [← opField_toNat]
  rcases decode_cases w with ⟨i, hi, hd⟩ | ⟨mk, hmk, hd⟩ | ⟨mk, hmk, hd⟩ | ⟨ho, hd⟩
  · rw [hd, decodeZ_command]
    rcases hi with ⟨ho, rfl⟩ | ⟨ho, rfl⟩ | ⟨ho, rfl⟩ | ⟨ho, rfl⟩ <;> simp [ho]
  · rw [hd, decodeB_command]
    rcases hmk with ⟨ho, rfl⟩ | ⟨ho, rfl⟩ <;> simp [ho]
  · rw [hd, decodeC_command]
    rcases hmk with ⟨ho, rfl⟩ | ⟨ho, rfl⟩ <;> simp [ho]
  · have hne (n : Nat) (hn : n < 8) : (opField w).toNat ≠ n := by omega
    simp [hd, hne]

/-! ### Illegal words -/

theorem execWord_of_illegal {why : IllegalWord} {s : State} (h : decode w = .illegal why) :
    execWord w s = execIllegal s := by
  rw [execWord, h]

/-- An illegal word is ignored in ERROR (60_exceptions.md R205) and raises IllegalCommand elsewhere (R203). -/
theorem execIllegal_eq (s : State) :
    execIllegal s = .next (if s.phase = .error then s else errorEntry .illegalCommand s) := by
  unfold execIllegal
  cases hp : s.phase with
  | error => exact perform_ignored _ (by rw [hp]; rfl)
  | idle | gen | data | done => exact perform_no _ (by rw [hp]; rfl)

/-- Settles O3: a word is illegal when its format gives no command, and executing it is `execIllegal`. -/
theorem illegalWordsRaiseIllegalCommand : Obligations.IllegalWordsRaiseIllegalCommand := by
  unfold Obligations.IllegalWordsRaiseIllegalCommand
  refine ⟨fun w => ?_, fun w why s h => ?_, rfl⟩
  · simp only [← opField_toNat]
    rw [← Decoded.command_eq_none_iff]
    rcases decode_cases w with ⟨i, hi, hd⟩ | ⟨mk, hmk, hd⟩ | ⟨mk, hmk, hd⟩ | ⟨ho, hd⟩
    · rw [hd, decodeZ_command]
      rcases hi with ⟨ho, -⟩ | ⟨ho, -⟩ | ⟨ho, -⟩ | ⟨ho, -⟩ <;> simp [ho]
    · rw [hd, decodeB_command]
      generalize w.toNat / 2 ^ 16 % 16 + 1 = k
      rcases hmk with ⟨ho, -⟩ | ⟨ho, -⟩ <;> simp [ho, imp_iff_not_or]
    · rw [hd, decodeC_command]
      rcases hmk with ⟨ho, -⟩ | ⟨ho, -⟩ <;> simp [ho]
    · simp [hd, ho]
  · rw [execWord_of_illegal h, execIllegal_eq]
    rfl

/-! ### The words of the encoder as numbers -/

/-- Fields that do not overlap: `a` from bit `i` up and `x` below it. -/
theorem toNat_shiftLeft_or {a x : Word} {i : Nat} (ha : a.toNat * 2 ^ i < 2 ^ 32) (hx : x.toNat < 2 ^ i) :
    (a <<< i ||| x).toNat = a.toNat * 2 ^ i + x.toNat := by
  rw [BitVec.toNat_or, BitVec.toNat_shiftLeft, Nat.shiftLeft_eq, Nat.mod_eq_of_lt ha, Nat.mul_comm,
    Nat.two_pow_add_eq_or_of_lt hx]

section
variable {op : Word} (ho : op.toNat < 16)
include ho

theorem encodeB_toNat {k : Nat} (v : BitVec 16) (hk : k ≤ 16) :
    (encodeB op k v).toNat = op.toNat * 2 ^ 28 + (k - 1) * 2 ^ 16 + v.toNat := by
  have hv : (v.setWidth 32).toNat = v.toNat := BitVec.toNat_setWidth_of_le (by decide)
  have hcount : (BitVec.ofNat 32 (k - 1)).toNat = k - 1 := by
    rw [BitVec.toNat_ofNat]
    omega
  have hlow : (BitVec.ofNat 32 (k - 1) <<< 16 ||| v.setWidth 32).toNat = (k - 1) * 2 ^ 16 + v.toNat := by
    rw [toNat_shiftLeft_or (by omega) (by omega), hcount, hv]
  rw [encodeB, BitVec.or_assoc, toNat_shiftLeft_or (by omega) (by omega), hlow, Nat.add_assoc]

theorem encodeC_toNat (c : BitVec 8) : (encodeC op c).toNat = op.toNat * 2 ^ 28 + c.toNat := by
  have hc : (c.setWidth 32).toNat = c.toNat := BitVec.toNat_setWidth_of_le (by decide)
  rw [encodeC, toNat_shiftLeft_or (by omega) (by omega), hc]

theorem encodeB_eq_ofNat {n k : Nat} (v : BitVec 16) (hn : op.toNat * 2 ^ 28 = n) (hk : k ≤ 16) :
    encodeB op k v = BitVec.ofNat 32 (n + (k - 1) * 2 ^ 16 + v.toNat) := by
  rw [← hn, ← encodeB_toNat ho v hk, BitVec.ofNat_toNat, BitVec.setWidth_eq]

theorem encodeC_eq_ofNat {n : Nat} (c : BitVec 8) (hn : op.toNat * 2 ^ 28 = n) :
    encodeC op c = BitVec.ofNat 32 (n + c.toNat) := by
  rw [← hn, ← encodeC_toNat ho c, BitVec.ofNat_toNat, BitVec.setWidth_eq]

/-! ### Decoding an encoded command -/

theorem decodeB_encodeB {k : Nat} {v : BitVec 16} (mk : Nat → BitVec 16 → Instr) (h : packedOk k v = true) :
    decodeB (encodeB op k v) mk = .legal (mk k v) := by
  obtain ⟨hk, hk', hv⟩ := packedOk_iff.1 h
  obtain ⟨-, hrsv, hcount, hpay⟩ := (formatB_fields_iff hk hk' v.isLt).1 (encodeB_toNat ho v hk')
  rw [← Decoded.command_eq_some_iff, decodeB_command, hrsv, hcount, hpay, Nat.div_eq_of_lt hv]
  simp

theorem decodeC_encodeC (c : BitVec 8) (mk : BitVec 8 → Instr) : decodeC (encodeC op c) mk = .legal (mk c) := by
  obtain ⟨-, hrsv, hch⟩ := (formatC_fields_iff c.isLt).1 (encodeC_toNat ho c)
  rw [← Decoded.command_eq_some_iff, decodeC_command, hrsv, hch]
  simp

end

theorem decode_encode {i : Instr} (h : i.WellFormed) : decode (encode i) = .legal i := by
  cases i with
  | nop | bege | begd | finish => rfl
  | gbits k v =>
    have ho : opField (encode (.gbits k v)) = 3 := Laws.OpcodeField.gbits k v h
    rw [decode, ho]
    exact decodeB_encodeB (by decide) .gbits h
  | gchr c =>
    have ho : opField (encode (.gchr c)) = 4 := Laws.OpcodeField.gchr c h
    rw [decode, ho]
    exact decodeC_encodeC (by decide) c .gchr
  | dbits k v =>
    have ho : opField (encode (.dbits k v)) = 5 := Laws.OpcodeField.dbits k v h
    rw [decode, ho]
    exact decodeB_encodeB (by decide) .dbits h
  | dchr c =>
    have ho : opField (encode (.dchr c)) = 6 := Laws.OpcodeField.dchr c h
    rw [decode, ho]
    exact decodeC_encodeC (by decide) c .dchr

/-! ### Encoding a decoded command -/

section
variable {op : Word} {i : Instr} (ho : (opField w).toNat = op.toNat)
include ho

theorem exists_encodeB_of_decodeB {mk : Nat → BitVec 16 → Instr} (h : decodeB w mk = .legal i) :
    ∃ k v, packedOk k v = true ∧ mk k v = i ∧ encodeB op k v = w := by
  have hop := (opField w).isLt
  have hpay : (BitVec.ofNat 16 (w.toNat % 2 ^ 16)).toNat = w.toNat % 2 ^ 16 := by simp
  rw [← Decoded.command_eq_some_iff, decodeB_command, Option.ite_none_right_eq_some] at h
  obtain ⟨⟨hrsv, hstray⟩, hi⟩ := h
  have hk : w.toNat / 2 ^ 16 % 16 + 1 ≤ 16 := by omega
  refine ⟨_, _, packedOk_iff.2 ⟨by omega, hk, ?_⟩, Option.some.inj hi, BitVec.eq_of_toNat_eq ?_⟩
  · rcases Nat.lt_or_eq_of_le hk with h16 | h16
    · rw [hpay]
      exact (Nat.div_eq_zero_iff_lt (by positivity)).1 (hstray h16)
    · rw [h16]
      exact BitVec.isLt _
  · rw [encodeB_toNat (by omega) _ hk, hpay, ← ho, opField_toNat]
    exact ((formatB_fields_iff (by omega) hk (Nat.mod_lt _ (by decide))).2 ⟨rfl, hrsv, rfl, rfl⟩).symm

theorem exists_encodeC_of_decodeC {mk : BitVec 8 → Instr} (h : decodeC w mk = .legal i) :
    ∃ c, mk c = i ∧ encodeC op c = w := by
  have hop := (opField w).isLt
  have hch : (BitVec.ofNat 8 (w.toNat % 2 ^ 8)).toNat = w.toNat % 2 ^ 8 := by simp
  rw [← Decoded.command_eq_some_iff, decodeC_command, Option.ite_none_right_eq_some] at h
  obtain ⟨hrsv, hi⟩ := h
  refine ⟨_, Option.some.inj hi, BitVec.eq_of_toNat_eq ?_⟩
  rw [encodeC_toNat (by omega), hch, ← ho, opField_toNat]
  exact ((formatC_fields_iff (Nat.mod_lt _ (by decide))).2 ⟨rfl, hrsv, rfl⟩).symm

end

theorem wellFormed_and_encode_of_decode {i : Instr} (h : decode w = .legal i) : i.WellFormed ∧ encode i = w := by
  rcases decode_cases w with ⟨j, hj, hd⟩ | ⟨mk, hmk, hd⟩ | ⟨mk, hmk, hd⟩ | ⟨-, hd⟩ <;> rw [hd] at h
  · obtain ⟨hz, rfl⟩ := decodeZ_eq_legal h
    rcases hj with ⟨ho, rfl⟩ | ⟨ho, rfl⟩ | ⟨ho, rfl⟩ | ⟨ho, rfl⟩ <;>
      exact ⟨rfl, Eq.symm (BitVec.eq_of_toNat_eq (toNat_of_formatZ ho hz))⟩
  · rcases hmk with ⟨ho, rfl⟩ | ⟨ho, rfl⟩
    · obtain ⟨k, v, hp, rfl, he⟩ := exists_encodeB_of_decodeB (op := 3) ho h
      exact ⟨hp, he⟩
    · obtain ⟨k, v, hp, rfl, he⟩ := exists_encodeB_of_decodeB (op := 5) ho h
      exact ⟨hp, he⟩
  · rcases hmk with ⟨ho, rfl⟩ | ⟨ho, rfl⟩
    · obtain ⟨c, rfl, he⟩ := exists_encodeC_of_decodeC (op := 4) ho h
      exact ⟨rfl, he⟩
    · obtain ⟨c, rfl, he⟩ := exists_encodeC_of_decodeC (op := 6) ho h
      exact ⟨rfl, he⟩
  · cases h

end

/-- Settles O1: `decode_encode` is one way of the round trip and `wellFormed_and_encode_of_decode` the other. -/
theorem commandEncodingIsUnique : Obligations.CommandEncodingIsUnique := by
  unfold Obligations.CommandEncodingIsUnique
  refine ⟨rfl, rfl, rfl, rfl, fun k v h => ?_, fun c => ?_, fun i hi w => ⟨fun h => ?_, ?_⟩,
    fun w i => wellFormed_and_encode_of_decode⟩
  · obtain ⟨-, hk, -⟩ := packedOk_iff.1 h
    exact ⟨encodeB_eq_ofNat (by decide) v rfl hk, encodeB_eq_ofNat (by decide) v rfl hk⟩
  · exact ⟨encodeC_eq_ofNat (by decide) c rfl, encodeC_eq_ofNat (by decide) c rfl⟩
  · exact (wellFormed_and_encode_of_decode h).2.symm
  · rintro rfl
    exact decode_encode hi

end Sys2Proof.Machine
end

section
/-! PROOFS. The pseudo-instructions (30_encoding.md R81) expand as listed and carry their strings. -/

namespace Sys2Proof.Machine

/-! ### The payload of a bit string -/

/-- `bits_k` reads only the k low bits (00_scope.md R10). -/
theorem bitsOf_mod {k n : Nat} (h : k ≤ n) (v : Nat) : bitsOf k (v % 2 ^ n) = bitsOf k v := by
  induction k with
  | zero => rfl
  | succ k ih =>
    have hb : (v % 2 ^ n).testBit k = v.testBit k := by
      rw [Nat.testBit_mod_two_pow, decide_eq_true (by omega), Bool.true_and]
    rw [bitsOf_succ, bitsOf_succ, hb, ih (by omega)]

/-- `bits_k(val(s)) = s` for the k bits of s (R10). -/
theorem bitsOf_bitsVal (s : Bits) : bitsOf s.length (bitsVal s) = s := by
  induction s with
  | nil => rfl
  | cons b bs ih =>
    have hv : bitsVal (b :: bs) = 2 ^ bs.length * b.toNat + bitsVal bs := by rw [bitsVal_cons, Nat.mul_comm]
    have hb : (bitsVal (b :: bs)).testBit bs.length = b := by
      rw [hv, Nat.testBit_two_pow_mul_add _ (bitsVal_lt bs)]
      cases b <;> simp
    have hm : bitsVal (b :: bs) % 2 ^ bs.length = bitsVal bs := by
      rw [hv, Nat.mul_add_mod, Nat.mod_eq_of_lt (bitsVal_lt bs)]
    rw [List.length_cons, bitsOf_succ, hb, ← bitsOf_mod le_rfl, hm, ih]

theorem payloadBits_ofNat {k : Nat} (hk : k ≤ 16) (v : Nat) : payloadBits k (BitVec.ofNat 16 v) = bitsOf k v := by
  rw [payloadBits, BitVec.toNat_ofNat, bitsOf_mod hk]

theorem packedOk_ofNat {k v : Nat} (hk : 1 ≤ k) (hk' : k ≤ 16) (hv : v < 2 ^ k) :
    packedOk k (BitVec.ofNat 16 v) = true := by
  refine packedOk_iff.2 ⟨hk, hk', ?_⟩
  rw [BitVec.toNat_ofNat]
  exact (Nat.mod_le _ _).trans_lt hv

/-! ### Streams of packed commands -/

theorem mem_chunks16 {n : Nat} {s c : Bits} (h : c ∈ chunks16 n s) : 1 ≤ c.length ∧ c.length ≤ 16 := by
  induction n generalizing s with
  | zero => simp [chunks16] at h
  | succ n ih =>
    cases s with
    | nil => simp at h
    | cons b bs =>
      rcases List.mem_cons.1 h with rfl | hc
      · simp
      · exact ih hc

theorem streamBits_map {f : Instr → Option Bits} {g : Bits → Instr} {cs : List Bits}
    (h : ∀ c ∈ cs, f (g c) = some c) : streamBits f (cs.map g) = some cs.flatten := by
  induction cs with
  | nil => rfl
  | cons c cs ih =>
    obtain ⟨hc, hcs⟩ := List.forall_mem_cons.1 h
    rw [List.map_cons, streamBits, hc, ih hcs, List.flatten_cons]

section
variable {mk : Nat → BitVec 16 → Instr}

theorem packedStream_wf (hw : ∀ k v, (mk k v).wf = packedOk k v) (s : Bits) :
    (packedStream mk s).all Instr.wf = true := by
  rw [packedStream, List.all_map, List.all_eq_true]
  intro c hc
  obtain ⟨hk, hk'⟩ := mem_chunks16 hc
  exact (hw _ _).trans (packedOk_ofNat hk hk' (bitsVal_lt c))

theorem streamBits_packedStream {f : Instr → Option Bits} (hf : ∀ k v, f (mk k v) = some (payloadBits k v))
    (s : Bits) : streamBits f (packedStream mk s) = some s := by
  rw [packedStream, streamBits_map, chunks16_flatten]
  intro c hc
  rw [hf, payloadBits_ofNat (mem_chunks16 hc).2, bitsOf_bitsVal]

theorem packedStream_of_short {s : Bits} (h : s ≠ []) (hl : s.length ≤ 16) :
    packedStream mk s = [mk s.length (BitVec.ofNat 16 (bitsVal s))] := by
  rw [packedStream, chunks16_short s h hl, List.map_singleton]

theorem packedStream_append {a : Bits} (ha : a.length = 16) (s : Bits) :
    packedStream mk (a ++ s) = mk 16 (BitVec.ofNat 16 (bitsVal a)) :: packedStream mk s := by
  rw [packedStream, chunks16_append a s ha, List.map_cons, ha, packedStream]

end

theorem asmGen_carries (s : Bits) : carriesGenerator (asmGen s) s :=
  ⟨packedStream_wf (fun _ _ => rfl) s, streamBits_packedStream (fun _ _ => rfl) s⟩

theorem asmData_carries (s : Bits) : carriesData (asmData s) s :=
  ⟨packedStream_wf (fun _ _ => rfl) s, streamBits_packedStream (fun _ _ => rfl) s⟩

/-- The command of `dbyte v` feeds the eight bits of the byte, the most significant first. -/
theorem dbits_byte_carries {v : Nat} (h : v ≤ 255) : carriesData [.dbits 8 (BitVec.ofNat 16 v)] (bitsOf 8 v) := by
  have hw : (Instr.dbits 8 (BitVec.ofNat 16 v)).wf = true := packedOk_ofNat (by decide) (by decide) (by omega)
  have hb : dataBits (.dbits 8 (BitVec.ofNat 16 v)) = some (bitsOf 8 v) :=
    congrArg some (payloadBits_ofNat (by decide) v)
  exact ⟨by simp [hw], by simp [streamBits, hb]⟩

/-! ### The assembler's forms -/

theorem oneString_text (f : Bits → List Instr) (s : Bits) :
    oneString f (s.map fun b => if b then '1' else '0') = .ok (f s) := by
  rw [oneString, bitString_text]

theorem twoStrings_text (f : Bits → Bits → List Instr) (s t : Bits) :
    twoStrings f (s.map fun b => if b then '1' else '0') (t.map fun b => if b then '1' else '0') = .ok (f s t) := by
  rw [twoStrings, bitString_text, bitString_text]

theorem symbolStream_eq_ok (mk : BitVec 8 → Instr) {t : List Char} (h : ∀ c ∈ t, c.toNat < 256) :
    symbolStream mk t = .ok (t.map fun c => mk (BitVec.ofNat 8 c.toNat)) := by
  induction t with
  | nil => rfl
  | cons c cs ih =>
    obtain ⟨hc, hcs⟩ := List.forall_mem_cons.1 h
    rw [symbolStream, symbolCommand, if_pos hc, ih hcs]
    rfl

theorem packedCommand_eq_ok (mk : Nat → BitVec 16 → Instr) {k v : Nat} (h : 1 ≤ k ∧ k ≤ 16 ∧ v < 2 ^ k) :
    packedCommand mk k v = .ok [mk k (BitVec.ofNat 16 v)] := if_pos h

theorem assembleForm_dbyte {w : List Char} {v : Nat} (h : number w = some v) :
    assembleForm ['d', 'b', 'y', 't', 'e'] [.word w] = packedCommand .dbits 8 v := by
  change (match number w with
    | some v => packedCommand .dbits 8 v
    | none => .error .badForm) = _
  rw [h]

/-- Settles O55: `gen` and `data` are the packed streams, which carry their strings chunk by chunk; the other forms are
the assembler's arms. -/
theorem pseudoInstructionsCarryTheirStrings : Obligations.PseudoInstructionsCarryTheirStrings := by
  unfold Obligations.PseudoInstructionsCarryTheirStrings
  intro text
  refine ⟨fun s => ⟨asmGen_carries s, asmData_carries s⟩, ⟨rfl, rfl⟩,
    fun s h hl => ⟨packedStream_of_short h hl, packedStream_of_short h hl⟩,
    fun a s ha => ⟨packedStream_append ha s, packedStream_append ha s⟩,
    fun s => ⟨oneString_text asmGen s, oneString_text asmData s⟩,
    fun t h => ⟨symbolStream_eq_ok .gchr h, symbolStream_eq_ok .dchr h⟩,
    fun w v hn hv => ⟨?_, dbits_byte_carries hv⟩,
    fun g m => ⟨twoStrings_text asmEncode g m, twoStrings_text asmDetect g m⟩, by decide⟩
  rw [assembleForm_dbyte hn]
  exact packedCommand_eq_ok .dbits ⟨by decide, by decide, by omega⟩

end Sys2Proof.Machine
end

section
/-! PROOFS. The PolynomialRegister datapath (40_polynomial_register.md R100 to R105): Step and Reduce as arithmetic,
their bounds, and the procedure that starts from the first N bits. -/

namespace Sys2Proof.Machine

/-! ### Step and Reduce as arithmetic -/

/-- The operand domain of Step and Reduce (R100, R101): a width and a generator of just that width. -/
structure GeneratorOfWidth (g : Reg64) (n : Nat) : Prop where
  two_le : 2 ≤ n
  le_64 : n ≤ 64
  lt : g.toNat < 2 ^ n
  leading : g.getLsbD (n - 1) = true

theorem GeneratorOfWidth.one_le {g : Reg64} {n : Nat} (hg : GeneratorOfWidth g n) : 1 ≤ n :=
  Nat.le_of_succ_le hg.two_le

section
variable {r g : Reg64} {n : Nat}

theorem getLsbD_of_toNat_lt {i : Nat} (hr : r.toNat < 2 ^ n) (hi : n ≤ i) : r.getLsbD i = false :=
  Nat.testBit_lt_two_pow (hr.trans_le (Nat.pow_le_pow_right (by decide) hi))

/-- The leading bit of a number of at most n bits, as its quotient by `2^(n-1)`. -/
theorem getLsbD_pred_iff (hn : 1 ≤ n) (hr : r.toNat < 2 ^ n) :
    r.getLsbD (n - 1) = true ↔ r.toNat / 2 ^ (n - 1) = 1 := by
  have hq : r.toNat / 2 ^ (n - 1) < 2 := Nat.div_lt_of_lt_mul (by rwa [pow_sub_one_mul (by omega)])
  rw [← BitVec.testBit_toNat, Nat.testBit_eq_decide_div_mod_eq, decide_eq_true_iff, Nat.mod_eq_of_lt hq]

theorem generatorOfWidth_of_bounds (hn : 2 ≤ n) (hn' : n ≤ 64) (hl : 2 ^ (n - 1) ≤ g.toNat) (hg : g.toNat < 2 ^ n) :
    GeneratorOfWidth g n where
  two_le := hn
  le_64 := hn'
  lt := hg
  leading := by
    refine (getLsbD_pred_iff (by omega) hg).mpr (Nat.div_eq_of_lt_le ?_ ?_)
    · rwa [Nat.one_mul]
    · rwa [one_add_one_eq_two, mul_pow_sub_one (by omega)]

theorem reduce_toNat (hn : 1 ≤ n) (hr : r.toNat < 2 ^ n) :
    (reduce r g n).toNat = if r.toNat / 2 ^ (n - 1) = 1 then r.toNat ^^^ g.toNat else r.toNat := by
  simp only [reduce, getLsbD_pred_iff hn hr, apply_ite BitVec.toNat, BitVec.toNat_xor]

/-- Reduce leaves a register whose leading bit is 0 (R101). -/
theorem reduce_of_lt (hr : r.toNat < 2 ^ (n - 1)) : reduce r g n = r :=
  if_neg (by simp [getLsbD_of_toNat_lt hr le_rfl])

theorem divStep_toNat (hn : n ≤ 64) (b : Bool) :
    (divStep r g n b).toNat = (2 * (reduce r g n).toNat + b.toNat) % 2 ^ n := by
  rw [divStep, lowBits_toNat, shiftIn_toNat, Nat.mod_mod_of_dvd _ (pow_dvd_pow 2 hn)]

theorem GeneratorOfWidth.reduce_lt (hg : GeneratorOfWidth g n) (hr : r.toNat < 2 ^ n) :
    (reduce r g n).toNat < 2 ^ (n - 1) :=
  Machine.reduce_lt hr hg.lt hg.one_le hg.leading

/-- No information is lost: the bit Step drops is 0 (R100). -/
theorem GeneratorOfWidth.double_reduce_add_lt (hg : GeneratorOfWidth g n) (hr : r.toNat < 2 ^ n) (b : Bool) :
    2 * (reduce r g n).toNat + b.toNat < 2 ^ n := by
  have hlt := hg.reduce_lt hr
  have hb : b.toNat < 2 := b.toNat_lt
  rw [← mul_pow_sub_one (Nat.one_le_iff_ne_zero.mp hg.one_le)]
  omega

end

/-- Settles O18: the tested bit of Reduce is a quotient, and Reduce leaves room for the shift. -/
theorem stepAndReduceArithmetic : Obligations.StepAndReduceArithmetic := by
  unfold Obligations.StepAndReduceArithmetic
  intro r g n b hn hn' hl hg hr r1
  have hw := generatorOfWidth_of_bounds hn hn' hl hg
  have h1 : (reduce r g n).toNat = r1 := reduce_toNat (by omega) hr
  exact ⟨h1 ▸ divStep_toNat hn' b, h1 ▸ hw.double_reduce_add_lt hr b, h1, hw.reduce_lt hr⟩

/-- Settles O19: Step truncates to N bits, Reduce clears bit N-1, and every command keeps the invariant. -/
theorem registerStaysBelowActiveWidth : Obligations.RegisterStaysBelowActiveWidth := by
  unfold Obligations.RegisterStaysBelowActiveWidth
  refine ⟨fun r g n b hn hn' hl hg hr => ?_, fun i s t hi h => (exec_inv hi h).regBound⟩
  exact ⟨divStep_lt r g n b, (generatorOfWidth_of_bounds hn hn' hl hg).reduce_lt hr⟩

/-! ### The first N Steps only shift (R103) -/

/-- Shifting a sequence in bit by bit loads its value. -/
theorem shiftIn_ofNat_bitsVal (s : Bits) (b : Bool) :
    shiftIn (BitVec.ofNat 64 (bitsVal s)) b = BitVec.ofNat 64 (bitsVal (s ++ [b])) := by
  apply BitVec.eq_of_toNat_eq
  rw [shiftIn_toNat, bitsVal_append_singleton, BitVec.toNat_ofNat, BitVec.toNat_ofNat]
  omega

theorem toNat_ofNat_bitsVal {s : Bits} (h : s.length ≤ 64) : (BitVec.ofNat 64 (bitsVal s)).toNat = bitsVal s := by
  rw [BitVec.toNat_ofNat, Nat.mod_eq_of_lt ((bitsVal_lt s).trans_le (Nat.pow_le_pow_right (by decide) h))]

theorem toNat_ofNat_bitsVal_lt {s : Bits} {k : Nat} (h : s.length ≤ k) :
    (BitVec.ofNat 64 (bitsVal s)).toNat < 2 ^ k :=
  (Nat.mod_le _ _).trans_lt ((bitsVal_lt s).trans_le (Nat.pow_le_pow_right (by decide) h))

/-- While no more than N bits have come in, the bit Step examines is 0. -/
theorem divSteps_zero_of_length_le (g : Reg64) {n : Nat} (s : Bits) (h : s.length ≤ n) :
    divSteps 0 g n s = BitVec.ofNat 64 (bitsVal s) := by
  induction s using List.reverseRecOn with
  | nil => rfl
  | append_singleton s b ih =>
    rw [List.length_append, List.length_singleton] at h
    have hlt : (BitVec.ofNat 64 (bitsVal s)).toNat < 2 ^ (n - 1) := toNat_ofNat_bitsVal_lt (by omega)
    rw [divSteps_append, ih (by omega), divSteps_cons, divSteps_nil, divStep, reduce_of_lt hlt, shiftIn_ofNat_bitsVal]
    exact lowBits_eq_self (toNat_ofNat_bitsVal_lt (by simpa using h))

/-- Settles O20: after the first N Steps the register is the document's start value, and the rest is the same. -/
theorem remAgreesWithTheDocumentsProcedure : Obligations.RemAgreesWithTheDocumentsProcedure := by
  unfold Obligations.RemAgreesWithTheDocumentsProcedure
  intro c s g _ _ _
  have hfirst := divSteps_zero_of_length_le (BitVec.ofNat 64 (bitsVal g)) (s.take g.length)
    (List.length_take_le _ _)
  refine ⟨hfirst, ?_⟩
  simp only [rem, remReg, remFromFirstBits]
  rw [← hfirst, ← divSteps_append, List.take_append_drop]

end Sys2Proof.Machine
end

section
/-! PROOFS. Rem is the remainder of polynomial division over GF(2), and so it is linear (40_polynomial_register.md R104,
R106). -/

namespace Sys2Proof.Machine

open Polynomial

/-! ### The polynomial of a register (00_scope.md R11) -/

/-- A bit as a coefficient over GF(2). -/
def bitCoeff (b : Bool) : ZMod 2 := if b then 1 else 0

theorem bitCoeff_xor (a b : Bool) : bitCoeff (a ^^ b) = bitCoeff a + bitCoeff b := by
  cases a <;> cases b <;> decide

theorem bitCoeff_injective : Function.Injective bitCoeff := by
  intro a b
  cases a <;> cases b <;> decide

/-- The polynomial over GF(2) a register holds: bit i is the coefficient of `x^i`. -/
noncomputable def regPoly (r : Reg64) : (ZMod 2)[X] := ∑ i ∈ Finset.range 64, monomial i (bitCoeff (r.getLsbD i))

theorem regPoly_coeff (r : Reg64) (i : Nat) : (regPoly r).coeff i = bitCoeff (r.getLsbD i) := by
  simp only [regPoly, finsetSum_coeff, coeff_monomial, Finset.sum_ite_eq', Finset.mem_range]
  split
  · rfl
  · rw [BitVec.getLsbD_of_ge _ _ (by omega)]
    rfl

theorem regPoly_zero : regPoly 0 = 0 := by
  ext i
  simp [regPoly_coeff, bitCoeff]

theorem regPoly_xor (r s : Reg64) : regPoly (r ^^^ s) = regPoly r + regPoly s := by
  ext i
  rw [coeff_add, regPoly_coeff, regPoly_coeff, regPoly_coeff, BitVec.getLsbD_xor, bitCoeff_xor]

/-- Shifting a bit in multiplies by x and adds the bit, when the bit shifted out is 0. -/
theorem regPoly_shiftIn {r : Reg64} (h : r.toNat < 2 ^ 63) (b : Bool) :
    regPoly (shiftIn r b) = regPoly r * X + C (bitCoeff b) := by
  ext i
  cases i with
  | zero => simp [regPoly_coeff, shiftIn]
  | succ i =>
    rw [coeff_add, coeff_mul_X, coeff_C_succ, add_zero, regPoly_coeff, regPoly_coeff]
    rcases lt_or_ge i 63 with hi | hi
    · simp [shiftIn, show i + 1 < 64 by omega, BitVec.getLsbD_eq_getElem (show i < 64 by omega)]
    · rw [BitVec.getLsbD_of_ge _ _ (by omega), getLsbD_of_toNat_lt h hi]

theorem regPoly_degree_lt {r : Reg64} {n : Nat} (h : r.toNat < 2 ^ n) : (regPoly r).degree < n := by
  rw [degree_lt_iff_coeff_zero]
  intro i hi
  rw [regPoly_coeff, getLsbD_of_toNat_lt h hi]
  rfl

/-! ### The polynomial of a sequence -/

theorem seqPoly_append_singleton (s : Bits) (b : Bool) : seqPoly (s ++ [b]) = seqPoly s * X + C (bitCoeff b) := by
  simp [seqPoly, bitCoeff]

theorem seqPoly_eq_regPoly (s : Bits) (h : s.length ≤ 64) : seqPoly s = regPoly (BitVec.ofNat 64 (bitsVal s)) := by
  induction s using List.reverseRecOn with
  | nil => exact regPoly_zero.symm
  | append_singleton s b ih =>
    rw [List.length_append, List.length_singleton] at h
    have hlt : (BitVec.ofNat 64 (bitsVal s)).toNat < 2 ^ 63 := toNat_ofNat_bitsVal_lt (by omega)
    rw [seqPoly_append_singleton, ih (by omega), ← shiftIn_ofNat_bitsVal, regPoly_shiftIn hlt]

/-- The k low bits of a register, as a sequence, hold its polynomial when the other bits are 0. -/
theorem seqPoly_bitsOf {r : Reg64} {k : Nat} (hk : k ≤ 64) (h : r.toNat < 2 ^ k) :
    seqPoly (bitsOf k r.toNat) = regPoly r := by
  rw [seqPoly_eq_regPoly _ (by simpa using hk), bitsVal_bitsOf, Nat.mod_eq_of_lt h, BitVec.ofNat_toNat,
    BitVec.setWidth_eq]

/-! ### Rem as a remainder (R104) -/

theorem validGenerator_iff {c : Config} {g : Bits} :
    validGenerator c g = true ↔ 2 ≤ g.length ∧ g.length ≤ c.nmax ∧ g.head? = some true := by
  simp [validGenerator, and_assoc]

theorem length_le_64_of_validGenerator {c : Config} {g : Bits} (hc : c.valid = true) (hg : validGenerator c g = true) :
    g.length ≤ 64 :=
  (validGenerator_iff.mp hg).2.1.trans (config_valid_iff.mp hc).2

theorem generatorOfWidth_of_validGenerator {c : Config} {g : Bits} (hc : c.valid = true)
    (hg : validGenerator c g = true) : GeneratorOfWidth (BitVec.ofNat 64 (bitsVal g)) g.length := by
  have hn' := length_le_64_of_validGenerator hc hg
  obtain ⟨hn, -, hh⟩ := validGenerator_iff.mp hg
  refine generatorOfWidth_of_bounds hn hn' ?_ (toNat_ofNat_bitsVal_lt le_rfl)
  obtain ⟨t, rfl⟩ := List.head?_eq_some_iff.mp hh
  rw [toNat_ofNat_bitsVal hn', bitsVal_cons]
  simp

section
variable {r g : Reg64} {n : Nat} (hg : GeneratorOfWidth g n)
include hg

theorem GeneratorOfWidth.degree : (regPoly g).degree = (n - 1 : Nat) := by
  refine degree_eq_of_le_of_coeff_ne_zero ((degree_le_iff_coeff_zero _ _).mpr fun i hi => ?_) ?_
  · have hni : n ≤ i := Nat.le_of_pred_lt (WithBot.coe_lt_coe.mp hi)
    rw [regPoly_coeff, getLsbD_of_toNat_lt hg.lt hni]
    rfl
  · rw [regPoly_coeff, hg.leading]
    decide

theorem GeneratorOfWidth.monic : (regPoly g).Monic :=
  monic_of_degree_le (n - 1) hg.degree.le (by rw [regPoly_coeff, hg.leading]; rfl)

/-- Step multiplies the reduced register by x and brings the bit in. -/
theorem GeneratorOfWidth.regPoly_divStep (hr : r.toNat < 2 ^ n) (b : Bool) :
    regPoly (divStep r g n b) = regPoly (reduce r g n) * X + C (bitCoeff b) := by
  have hlt : (reduce r g n).toNat < 2 ^ 63 :=
    (hg.reduce_lt hr).trans_le (Nat.pow_le_pow_right (by decide) (by have := hg.le_64; omega))
  have hs : (shiftIn (reduce r g n) b).toNat < 2 ^ n := by
    rw [shiftIn_toNat]
    exact (Nat.mod_le _ _).trans_lt (hg.double_reduce_add_lt hr b)
  rw [divStep, lowBits_eq_self hs, regPoly_shiftIn hlt]

end

/-- Reduce keeps the register's class modulo the generator: it adds the generator or nothing. -/
theorem mk_regPoly_reduce (r g : Reg64) (n : Nat) :
    AdjoinRoot.mk (regPoly g) (regPoly (reduce r g n)) = AdjoinRoot.mk (regPoly g) (regPoly r) := by
  unfold reduce
  split
  · rw [regPoly_xor, map_add, AdjoinRoot.mk_self, add_zero]
  · rfl

/-- The invariant of the division: the register is congruent to the sequence fed so far. -/
theorem GeneratorOfWidth.mk_regPoly_divSteps {g : Reg64} {n : Nat} (hg : GeneratorOfWidth g n) (s : Bits) :
    AdjoinRoot.mk (regPoly g) (regPoly (divSteps 0 g n s)) = AdjoinRoot.mk (regPoly g) (seqPoly s) := by
  induction s using List.reverseRecOn with
  | nil => exact congrArg _ regPoly_zero
  | append_singleton s b ih =>
    have hr : (divSteps 0 g n s).toNat < 2 ^ n := divSteps_lt s (Nat.two_pow_pos n)
    rw [divSteps_append, divSteps_cons, divSteps_nil, hg.regPoly_divStep hr, seqPoly_append_singleton]
    simp only [map_add, map_mul, mk_regPoly_reduce, ih]

/-- The reduced register is congruent to the sequence and of lower degree than the generator. -/
theorem GeneratorOfWidth.regPoly_remReg {g : Reg64} {n : Nat} (hg : GeneratorOfWidth g n) (s : Bits) :
    regPoly (remReg s g n) = seqPoly s %ₘ regPoly g := by
  have hdeg : (regPoly (remReg s g n)).degree < (regPoly g).degree := by
    rw [hg.degree]
    exact regPoly_degree_lt (hg.reduce_lt (divSteps_lt s (Nat.two_pow_pos n)))
  have hmk : AdjoinRoot.mk (regPoly g) (regPoly (remReg s g n)) = AdjoinRoot.mk (regPoly g) (seqPoly s) := by
    rw [remReg, mk_regPoly_reduce, hg.mk_regPoly_divSteps]
  calc regPoly (remReg s g n)
      = regPoly (remReg s g n) %ₘ regPoly g := ((modByMonic_eq_self_iff hg.monic).mpr hdeg).symm
    _ = seqPoly s %ₘ regPoly g := modByMonic_eq_of_dvd_sub hg.monic (AdjoinRoot.mk_eq_mk.mp hmk)

theorem rem_eq_bitsOf (s g : Bits) :
    rem s g = bitsOf (g.length - 1) (remReg s (BitVec.ofNat 64 (bitsVal g)) g.length).toNat := by
  simp only [rem]
  rw [lowBits_toNat, bitsOf_mod le_rfl]

@[simp] theorem rem_length (s g : Bits) : (rem s g).length = g.length - 1 := bitsOf_length _ _

theorem seqPoly_rem {c : Config} {g : Bits} (hc : c.valid = true) (hg : validGenerator c g = true) (s : Bits) :
    seqPoly (rem s g) = seqPoly s %ₘ seqPoly g := by
  have hw := generatorOfWidth_of_validGenerator hc hg
  have hlt : (remReg s (BitVec.ofNat 64 (bitsVal g)) g.length).toNat < 2 ^ (g.length - 1) :=
    hw.reduce_lt (divSteps_lt s (Nat.two_pow_pos _))
  have hn := hw.le_64
  rw [rem_eq_bitsOf, seqPoly_bitsOf (by omega) hlt, hw.regPoly_remReg, seqPoly_eq_regPoly g hn]

/-- Settles O21, by the invariant of the division and the degree of the reduced register. -/
theorem remIsPolynomialRemainder : Obligations.RemIsPolynomialRemainder := by
  unfold Obligations.RemIsPolynomialRemainder
  exact fun c s g hc hg => ⟨rem_length s g, seqPoly_rem hc hg s⟩

/-! ### Linearity (R106) -/

theorem xorBits_append_singleton {s t : Bits} (h : s.length = t.length) (a b : Bool) :
    xorBits (s ++ [a]) (t ++ [b]) = xorBits s t ++ [a ^^ b] :=
  List.zipWith_append h

@[simp] theorem xorBits_length {s t : Bits} (h : s.length = t.length) : (xorBits s t).length = t.length := by
  simp [xorBits, h]

theorem xorBits_zeros_left (t : Bits) : xorBits (zeros t.length) t = t := by
  induction t with
  | nil => rfl
  | cons b t ih => simpa [xorBits, zeros_succ] using ih

/-- An induction over two sequences of equal length, from the right. -/
theorem equalLength_induction {P : (s t : Bits) → s.length = t.length → Prop} (nil : P [] [] rfl)
    (append_singleton : ∀ s t a b h, P s t h → P (s ++ [a]) (t ++ [b]) (by simpa using h)) (s t : Bits)
    (h : s.length = t.length) : P s t h := by
  induction s using List.reverseRecOn generalizing t with
  | nil =>
    obtain rfl := List.length_eq_zero_iff.mp h.symm
    exact nil
  | append_singleton s a ih =>
    rcases List.eq_nil_or_concat' t with rfl | ⟨t, b, rfl⟩
    · simp at h
    · exact append_singleton s t a b _ (ih t (by simpa using h))

theorem seqPoly_xorBits (s t : Bits) (h : s.length = t.length) :
    seqPoly (xorBits s t) = seqPoly s + seqPoly t := by
  induction s, t, h using equalLength_induction with
  | nil => simp [xorBits, seqPoly]
  | append_singleton s t a b h ih =>
    rw [xorBits_append_singleton h]
    simp only [seqPoly_append_singleton, ih, bitCoeff_xor, C_add]
    ring

/-- Two sequences of equal length with the same polynomial are equal. -/
theorem eq_of_seqPoly_eq {s t : Bits} (h : s.length = t.length) (hp : seqPoly s = seqPoly t) : s = t := by
  induction s, t, h using equalLength_induction with
  | nil => rfl
  | append_singleton s t a b _ ih =>
    rw [seqPoly_append_singleton, seqPoly_append_singleton] at hp
    have hb : bitCoeff a = bitCoeff b := by simpa using congrArg (coeff · 0) hp
    rw [hb] at hp
    have hs : seqPoly s = seqPoly t := mul_right_cancel₀ X_ne_zero (add_right_cancel hp)
    rw [ih hs, bitCoeff_injective hb]

/-- Settles O22: both sides have N-1 bits and the same polynomial, since the remainder is additive. -/
theorem remIsLinear : Obligations.RemIsLinear := by
  unfold Obligations.RemIsLinear
  intro c s e g hc hg hl
  have hrem : (rem s g).length = (rem e g).length := by simp
  have hlin : rem (xorBits s e) g = xorBits (rem s g) (rem e g) := by
    apply eq_of_seqPoly_eq
    · simp
    · simp only [seqPoly_xorBits _ _ hl, seqPoly_xorBits _ _ hrem, seqPoly_rem hc hg, add_modByMonic]
  refine ⟨hlin, fun hz => ?_⟩
  rw [hlin, hz, ← rem_length e g, xorBits_zeros_left]

end Sys2Proof.Machine
end

section
/-! PROOFS. The work of a command (40_polynomial_register.md R107, 70_reset_and_hazards.md R240): one Step for each bit
it processes. -/

namespace Sys2Proof.Machine

/-! ### The commands that carry bits, where they run -/

section
variable {s : State} {i : Instr} {bs : Bits}

/-- The body of a command that carries data bits (42_crc_encoder.md R140, R141). -/
theorem exec_of_dataBits (hb : dataBits i = some bs) : exec i s = perform .data (feedData bs) s := by
  cases i with
  | dbits k v => cases hb; rfl
  | dchr c =>
    obtain ⟨b, hs, rfl⟩ := Option.map_eq_some_iff.mp hb
    simp [exec, execDchr, perform, dchrEffect, hs]
  | nop | bege | begd | gbits | gchr | finish => cases hb

theorem startData_of_feeding (hf : Feeding s) : startData s = .ok (enterData s) := by
  rcases startData_cases s with ⟨hp, hg, -⟩ | ⟨-, h⟩
  · rcases hf with hd | ⟨-, hg'⟩
    · simp [hp] at hd
    · simp [hg] at hg'
  · exact h

/-- The phases that feed are those in which the data commands and END are legal (41_control_and_generator.md R126). -/
theorem legality_of_feeding (hf : Feeding s) : legality .data s.phase = .yes ∧ legality .finish s.phase = .yes := by
  rcases hf with hp | ⟨hp, -⟩ <;> rw [hp] <;> exact ⟨rfl, rfl⟩

theorem exec_data_of_feeding (hb : dataBits i = some bs) (hf : Feeding s) :
    exec i s = .next (feedBits bs (enterData s)) := by
  rw [exec_of_dataBits hb, perform_yes _ (legality_of_feeding hf).1, feedData, startData_of_feeding hf]
  rfl

theorem exec_generator_of_fits (hb : generatorBits i = some bs) (hp : s.phase = .gen)
    (hl : s.glen.toNat + bs.length ≤ s.config.nmax) : exec i s = .next (appendGenerator bs s) := by
  rw [exec_of_generatorBits hb, perform_yes _ (by rw [hp]; rfl), loadGenerator, if_neg (by omega)]
  rfl

theorem exec_finish_enc (hf : Feeding s) (hm : s.mode = .enc) : exec .finish s = .next (encFinish (enterData s)) := by
  have he : finishEffect s = .ok (encFinish (enterData s)) := by
    simp only [finishEffect, startData_of_feeding hf, enterData_mode, hm]
  rw [exec, execFinish, perform_yes _ (legality_of_feeding hf).2, he]
  rfl

theorem exec_finish_det (hf : Feeding s) (hm : s.mode = .det) (hl : s.glen.toNat ≤ s.len.toNat) :
    exec .finish s = .next (writeHasErr (storeResult (reduce s.reg s.gen s.glen.toNat) (enterData s))) := by
  have he : finishEffect s = .ok (writeHasErr (storeResult (reduce s.reg s.gen s.glen.toNat) (enterData s))) := by
    simp only [finishEffect, startData_of_feeding hf, enterData_mode, hm]
    exact if_neg (Nat.not_lt.mpr hl)
  rw [exec, execFinish, perform_yes _ (legality_of_feeding hf).2, he]
  rfl

/-- The N-1 extension zeros of END are Steps with bit 0 (R143). -/
theorem divSteps_zeros (r g : Reg64) (n k : Nat) :
    divSteps r g n (zeros k) = (fun r => divStep r g n false)^[k] r := by
  induction k generalizing r with
  | zero => rfl
  | succ k ih => rw [zeros_succ, divSteps_cons, ih, Function.iterate_succ_apply]

/-! ### The bits a command processes (R240) -/

theorem length_of_symbolBit {c : BitVec 8} (h : (symbolBit c).map (fun b => [b]) = some bs) : bs.length = 1 := by
  obtain ⟨b, -, rfl⟩ := Option.map_eq_some_iff.mp h
  rfl

theorem length_of_dataBits (s : State) (hb : dataBits i = some bs) : bs.length = bitsProcessed i s := by
  cases i with
  | dbits k v => cases hb; exact payloadBits_length k v
  | dchr c => exact length_of_symbolBit hb
  | nop | bege | begd | gbits | gchr | finish => cases hb

theorem length_of_generatorBits (s : State) (hb : generatorBits i = some bs) : bs.length = bitsProcessed i s := by
  cases i with
  | gbits k v => cases hb; exact payloadBits_length k v
  | gchr c => exact length_of_symbolBit hb
  | nop | bege | begd | dbits | dchr | finish => cases hb

theorem bitsProcessed_finish_enc (hm : s.mode = .enc) : bitsProcessed .finish s = s.glen.toNat - 1 := by
  rw [bitsProcessed, hm]

theorem bitsProcessed_finish_det (hm : s.mode = .det) : bitsProcessed .finish s = 0 := by
  rw [bitsProcessed, hm]

theorem bitsProcessed_of_nop_or_opening (s : State) (h : i = .nop ∨ classOf i = .opening) :
    bitsProcessed i s = 0 := by
  cases i with
  | nop | bege | begd => rfl
  | gbits | gchr | dbits | dchr | finish => simp [classOf] at h

/-- The commands of a stream process as many bits as they carry together. -/
theorem sum_bitsProcessed_of_streamBits {f : Instr → Option Bits}
    (hf : ∀ {i bs}, f i = some bs → bs.length = bitsProcessed i s) {is : List Instr} (h : streamBits f is = some bs) :
    (is.map fun i => bitsProcessed i s).sum = bs.length := by
  induction is generalizing bs with
  | nil => cases h; rfl
  | cons i is ih =>
    rw [streamBits] at h
    split at h
    case h_1 b cs hb hcs =>
      cases h
      rw [List.map_cons, List.sum_cons, ih hcs, ← hf hb, List.length_append]
    case h_2 => cases h

end

/-- Settles O43: each clause is the equation of one kind of command, and the sums run over its streams. -/
theorem workIsOneStepPerBit : Obligations.WorkIsOneStepPerBit := by
  unfold Obligations.WorkIsOneStepPerBit
  intro s n feeding
  refine ⟨fun i bs hb => ⟨length_of_dataBits s hb, fun hf => ⟨_, exec_data_of_feeding hb hf, feedBits_reg bs _⟩⟩,
    fun hf hm => ⟨bitsProcessed_finish_enc hm, _, exec_finish_enc hf hm, ?_⟩,
    fun hf hm hl => ⟨bitsProcessed_finish_det hm, _, exec_finish_det hf hm hl, rfl⟩,
    fun i bs hb => ⟨length_of_generatorBits s hb, fun hp hl => ⟨_, exec_generator_of_fits hb hp hl, rfl, ?_, rfl⟩⟩,
    fun i => bitsProcessed_of_nop_or_opening s,
    fun gs g hg => sum_bitsProcessed_of_streamBits (length_of_generatorBits s) hg.2, fun ds m hd => ?_⟩
  · rw [bitsProcessed_finish_enc hm, ← divSteps_zeros]
    rfl
  · rw [← length_of_generatorBits s hb, BitVec.ofNat_add, BitVec.ofNat_toNat, BitVec.setWidth_eq]
    rfl
  · have hsum := sum_bitsProcessed_of_streamBits (length_of_dataBits s) hd.2
    refine ⟨hsum, fun hm => ?_, fun hm => ?_⟩
    · simp [hsum, bitsProcessed_finish_enc hm, n]
    · simp [hsum, bitsProcessed_finish_det hm]

end Sys2Proof.Machine
end

section
/-! PROOFS. Operation control and generator loading (41_control_and_generator.md R120 to R126): NOP, BEGE and BEGD,
appending generator bits, the test of the generator, and the legality table. -/

namespace Sys2Proof.Machine

/-! ### NOP and the opening commands -/

/-- A well-formed command is decoded from its own word alone (30_encoding.md R78). -/
theorem decode_eq_legal_iff {i : Instr} (hi : i.WellFormed) {w : Word} : decode w = .legal i ↔ w = encode i := by
  constructor
  · exact fun h => (wellFormed_and_encode_of_decode h).2.symm
  · rintro rfl
    exact decode_encode hi

theorem exec_nop (s : State) : exec .nop s = .next s := perform_yes (c := .nop) (fun s => .ok s) rfl

/-- Settles O5: the frame performs NOP in every phase, and its word is the encoder's. -/
theorem nopChangesNothing : Obligations.NopChangesNothing := by
  unfold Obligations.NopChangesNothing
  exact ⟨exec_nop, fun w => decode_eq_legal_iff rfl⟩

/-- No phase refuses an opening command (R126). -/
theorem perform_opening (m : Mode) (s : State) :
    perform .opening (fun s => .ok (openOperation m s)) s = .next (openOperation m s) := perform_yes _ rfl

theorem exec_bege (s : State) : exec .bege s = .next (openOperation .enc s) := perform_opening .enc s

theorem exec_begd (s : State) : exec .begd s = .next (openOperation .det s) := perform_opening .det s

theorem flags_of_opened {i : Instr} {m : Mode} {s t : State} (ho : exec i s = .next (openOperation m s))
    (h : exec i s = .next t) : t.valid = false ∧ t.err = false := by
  cases ho.symm.trans h
  exact ⟨rfl, rfl⟩

/-- Settles O6: BEGE opens an operation in mode ENC from every state. -/
theorem begeOpensEncode : Obligations.BegeOpensEncode := by
  unfold Obligations.BegeOpensEncode
  refine ⟨exec_bege, fun s t => flags_of_opened (exec_bege s), fun t h => ?_⟩
  cases (exec_bege State.reset).symm.trans h
  decide

/-- Settles O7: BEGD opens an operation in mode DET from every state. -/
theorem begdOpensDetect : Obligations.BegdOpensDetect := by
  unfold Obligations.BegdOpensDetect
  refine ⟨exec_begd, fun s t => flags_of_opened (exec_begd s), fun t h => ?_⟩
  cases (exec_begd State.reset).symm.trans h
  decide

/-! ### Appending generator bits -/

/-- Shifting in bits appends them to the register, modulo its 64 bits. -/
theorem foldl_shiftIn_eq_ofNat (r : Reg64) (bs : Bits) :
    bs.foldl shiftIn r = BitVec.ofNat 64 (r.toNat * 2 ^ bs.length + bitsVal bs) := by
  induction bs using List.reverseRecOn with
  | nil => simp
  | append_singleton bs b ih =>
    have hv : r.toNat * 2 ^ (bs ++ [b]).length + bitsVal (bs ++ [b]) =
        2 * (r.toNat * 2 ^ bs.length + bitsVal bs) + b.toNat := by
      rw [List.length_append, List.length_singleton, bitsVal_append_singleton]
      ring
    rw [List.foldl_append, ih, hv]
    apply BitVec.eq_of_toNat_eq
    rw [List.foldl_cons, List.foldl_nil, shiftIn_toNat, BitVec.toNat_ofNat, BitVec.toNat_ofNat]
    omega

/-- A shift makes room for a value of k bits. -/
theorem shiftLeft_or_eq_ofNat (r : Reg64) {x : Reg64} {k : Nat} (hx : x.toNat < 2 ^ k) :
    r <<< k ||| x = BitVec.ofNat 64 (r.toNat * 2 ^ k + x.toNat) := by
  apply BitVec.eq_of_toNat_eq
  rw [BitVec.toNat_or, BitVec.toNat_shiftLeft, BitVec.toNat_ofNat, Nat.shiftLeft_eq, Nat.mul_comm,
    Nat.two_pow_add_eq_or_of_lt hx, Nat.or_mod_two_pow, Nat.mod_eq_of_lt x.isLt]

section
variable {s : State}

theorem appendGenerator_eq (bs : Bits) (s : State) :
    appendGenerator bs s =
      { s with gen := BitVec.ofNat 64 (s.gen.toNat * 2 ^ bs.length + bitsVal bs),
               glen := BitVec.ofNat 7 (s.glen.toNat + bs.length) } := by
  rw [appendGenerator, foldl_shiftIn_eq_ofNat, BitVec.ofNat_add (n := 7), BitVec.ofNat_toNat, BitVec.setWidth_eq]

theorem appendGenerator_append (bs cs : Bits) (s : State) :
    appendGenerator (bs ++ cs) s = appendGenerator cs (appendGenerator bs s) := by
  simp [appendGenerator, BitVec.ofNat_add, BitVec.add_assoc]

/-- `appendGenerator` in the form the commands are specified in, for k bits of value x (R123). -/
theorem appendGenerator_eq_shiftLeft_or {bs : Bits} {x : Reg64} (hx : x.toNat = bitsVal bs) (s : State) :
    appendGenerator bs s =
      { s with gen := s.gen <<< bs.length ||| x, glen := BitVec.ofNat 7 (s.glen.toNat + bs.length) } := by
  rw [appendGenerator_eq, shiftLeft_or_eq_ofNat s.gen (hx ▸ bitsVal_lt bs), hx]

theorem settle_loadGenerator (bs : Bits) (s : State) :
    settle s (loadGenerator bs s) =
      if s.glen.toNat + bs.length > s.config.nmax then errorEntry .capacityExceeded s else appendGenerator bs s := by
  rcases loadGenerator_cases bs s with ⟨hl, he⟩ | ⟨hl, he⟩
  · rw [he, if_pos hl]
    rfl
  · rw [he, if_neg (Nat.not_lt.mpr hl)]
    rfl

/-- The row of the generator commands in the legality table (R126). -/
theorem perform_generator (body : State → Effect) (s : State) :
    perform .generator body s = .next (
      if s.phase = .error then s
      else if s.phase ≠ .gen then errorEntry .illegalCommand s
      else settle s (body s)) := by
  cases hp : s.phase with
  | error => exact perform_ignored body (by rw [hp]; rfl)
  | gen => exact perform_yes body (by rw [hp]; rfl)
  | idle | data | done => exact perform_no body (by rw [hp]; rfl)

theorem bitsVal_payloadBits {k : Nat} {v : BitVec 16} (h : v.toNat < 2 ^ k) :
    bitsVal (payloadBits k v) = v.toNat := by
  rw [payloadBits, bitsVal_bitsOf, Nat.mod_eq_of_lt h]

/-- Settles O8: the payload bits of a well-formed GBITS have the value v and the length k. -/
theorem gbitsAppendsWholePayload : Obligations.GbitsAppendsWholePayload := by
  unfold Obligations.GbitsAppendsWholePayload
  intro k v s hk
  obtain ⟨-, -, hv⟩ := packedOk_iff.mp hk
  have hx : (v.setWidth 64).toNat = bitsVal (payloadBits k v) := by
    rw [bitsVal_payloadBits hv, BitVec.toNat_setWidth_of_le (by decide)]
  rw [exec_of_generatorBits rfl, perform_generator, settle_loadGenerator, appendGenerator_eq_shiftLeft_or hx,
    payloadBits_length]

theorem symbolBit_eq_none {c : BitVec 8} : symbolBit c = none ↔ c.toNat ≠ 0x30 ∧ c.toNat ≠ 0x31 := by
  simp [symbolBit, ← BitVec.toNat_inj, ite_eq_iff]

/-- The codes of the binary symbols are consecutive (30_encoding.md R75). -/
theorem toNat_of_symbolBit {c : BitVec 8} {b : Bool} (h : symbolBit c = some b) : c.toNat = 0x30 + b.toNat := by
  rcases symbolBit_eq_some.mp h with ⟨rfl, rfl⟩ | ⟨rfl, rfl⟩ <;> rfl

/-- Settles O9: with no bit for the symbol InvalidAlphabet, else the one bit of the symbol is appended. -/
theorem gchrAppendsSymbol : Obligations.GchrAppendsSymbol := by
  unfold Obligations.GchrAppendsSymbol
  intro c s
  have hexec : exec (.gchr c) s = perform .generator (gchrEffect c) s := rfl
  rw [hexec, perform_generator]
  cases hs : symbolBit c with
  | none =>
    rw [if_pos (symbolBit_eq_none.mp hs), gchrEffect, hs]
    rfl
  | some b =>
    have hc := toNat_of_symbolBit hs
    have hx : (BitVec.ofNat 64 (c.toNat - 0x30)).toNat = bitsVal [b] := by
      rw [hc]
      cases b <;> rfl
    have hne : ¬(c.toNat ≠ 0x30 ∧ c.toNat ≠ 0x31) := by
      rw [← symbolBit_eq_none, hs]
      simp
    rw [if_neg hne, gchrEffect, hs]
    simp only [settle_loadGenerator, appendGenerator_eq_shiftLeft_or hx, List.length_singleton]

/-! ### A generator split over commands -/

theorem glen_appendGenerator_of_config (hc : s.config.valid = true) {bs : Bits}
    (hl : s.glen.toNat + bs.length ≤ s.config.nmax) :
    (appendGenerator bs s).glen.toNat = s.glen.toNat + bs.length := by
  obtain ⟨-, hmax⟩ := config_valid_iff.mp hc
  rw [appendGenerator_eq, BitVec.toNat_ofNat]
  omega

/-- A stream of generator commands that fits appends the bits it carries (R123). -/
theorem runCommands_of_generator_stream {gs : List Instr} {g : Bits} (hc : s.config.valid = true)
    (hp : s.phase = .gen) (hg : streamBits generatorBits gs = some g)
    (hl : s.glen.toNat + g.length ≤ s.config.nmax) : runCommands gs s = .next (appendGenerator g s) := by
  induction gs generalizing g s with
  | nil =>
    cases hg
    simp [runCommands, appendGenerator]
  | cons i gs ih =>
    rw [streamBits] at hg
    split at hg
    case h_1 b bs hb hbs =>
      cases hg
      rw [List.length_append] at hl
      have hfit : s.glen.toNat + b.length ≤ s.config.nmax := by omega
      rw [runCommands, exec_generator_of_fits hb hp hfit, appendGenerator_append]
      refine ih hc hp hbs ?_
      rw [glen_appendGenerator_of_config hc hfit, appendGenerator_config]
      omega
    case h_2 => cases hg

end

/-- Settles O16: the commands append their bits one after the other, which is appending them all. -/
theorem generatorChunkingHasNoEffect : Obligations.GeneratorChunkingHasNoEffect := by
  unfold Obligations.GeneratorChunkingHasNoEffect
  intro gs g s hc hp hg hl
  rw [runCommands_of_generator_stream hc hp hg.2 hl, appendGenerator_eq]

/-! ### ValidateGen at the first data command (R125) -/

section
variable {s : State} {body : State → Effect}

theorem generatorOk_eq_false_iff :
    generatorOk s = false ↔ s.glen.toNat < 2 ∨ s.gen.toNat / 2 ^ (s.glen.toNat - 1) % 2 = 0 := by
  simp only [← Bool.not_eq_true, generatorOk_iff, ← BitVec.testBit_toNat, Nat.testBit_eq_decide_div_mod_eq,
    decide_eq_true_iff]
  omega

/-- A body whose first act is `startData` (R140 to R142): it raises what that raises, and depends on the state only
through what that answers. -/
structure BeginsWithStartData (body : State → Effect) : Prop where
  error {s : State} {e : ErrorCode} : startData s = .error e → body s = .error e
  congr {s t : State} : startData s = startData t → body s = body t

theorem feedData_begins (bs : Bits) : BeginsWithStartData (feedData bs) where
  error h := by rw [feedData, h]
  congr h := by rw [feedData, feedData, h]

theorem finishEffect_begins : BeginsWithStartData finishEffect where
  error h := by rw [finishEffect, h]
  congr h := by rw [finishEffect, finishEffect, h]

/-- An error entry overwrites the only register `enterData` writes. -/
theorem settle_enterData (x : Effect) : settle (enterData s) x = settle s x := by
  cases x <;> rfl

theorem perform_of_begins (hb : BeginsWithStartData body) {c : CommandClass} (hg : legality c .gen = .yes)
    (hd : legality c .data = .yes) (hp : s.phase = .gen) :
    perform c body s =
      if generatorOk s = false then .next (errorEntry .invalidGenerator s) else perform c body (enterData s) := by
  rw [perform_yes body (hp ▸ hg)]
  rcases startData_cases s with ⟨-, hok, hs⟩ | ⟨hok, hs⟩
  · rw [if_pos hok, hb.error hs]
    rfl
  · have hstart : startData (enterData s) = startData s := hs ▸ startData_of_feeding (.inl rfl)
    rw [if_neg (by simp [hok hp]), perform_yes body hd, hb.congr hstart, settle_enterData]

theorem Inv.generator_bounds (h : Inv s) (hp : s.phase = .data ∨ s.phase = .done) :
    2 ≤ s.glen.toNat ∧ s.glen.toNat ≤ s.config.nmax ∧
      2 ^ (s.glen.toNat - 1) ≤ s.gen.toNat ∧ s.gen.toNat < 2 ^ s.glen.toNat := by
  obtain ⟨hn, hlead⟩ := generatorOk_iff.mp (h.generatorValid hp)
  exact ⟨hn, h.glenBound, Nat.ge_two_pow_of_testBit hlead, h.genBound⟩

end

/-- Settles O10: each of these commands begins with `startData`, and the invariant keeps its test. -/
theorem firstDataCommandValidatesGenerator : Obligations.FirstDataCommandValidatesGenerator := by
  unfold Obligations.FirstDataCommandValidatesGenerator
  refine ⟨fun i s hp hi => ?_, fun s => Inv.generator_bounds⟩
  simp only [← generatorOk_eq_false_iff]
  rcases hi with rfl | hi
  · exact perform_of_begins finishEffect_begins rfl rfl hp
  · obtain ⟨bs, hb⟩ := Option.isSome_iff_exists.mp hi
    rw [exec_of_dataBits hb, exec_of_dataBits hb]
    exact perform_of_begins (feedData_begins bs) rfl rfl hp

/-! ### The legality table (R126) -/

section
variable {s : State}

/-- An effect by which a command does not end with IllegalCommand. -/
def NotIllegalCommand : Effect → Prop
  | .ok t => t.phase ≠ .error
  | .error e => e ≠ .illegalCommand

theorem NotIllegalCommand.settle {x : Effect} (h : NotIllegalCommand x) :
    (settle s x).phase = .error → (settle s x).ecode ≠ .illegalCommand := by
  cases x with
  | ok t => exact fun hp => absurd hp h
  | error e => exact fun _ => h

theorem notIllegalCommand_loadGenerator (bs : Bits) (hp : s.phase ≠ .error) :
    NotIllegalCommand (loadGenerator bs s) := by
  rcases loadGenerator_cases bs s with ⟨-, h⟩ | ⟨-, h⟩ <;> rw [h]
  · exact nofun
  · exact hp

theorem notIllegalCommand_gchrEffect (c : BitVec 8) (hp : s.phase ≠ .error) :
    NotIllegalCommand (gchrEffect c s) := by
  unfold gchrEffect
  split
  · exact nofun
  · exact notIllegalCommand_loadGenerator _ hp

theorem notIllegalCommand_feedData (bs : Bits) (s : State) : NotIllegalCommand (feedData bs s) := by
  rcases feedData_cases bs s with ⟨-, -, h⟩ | ⟨-, h⟩ <;> rw [h]
  · exact nofun
  · simp [NotIllegalCommand]

theorem notIllegalCommand_dchrEffect (c : BitVec 8) (s : State) : NotIllegalCommand (dchrEffect c s) := by
  unfold dchrEffect
  split
  · exact nofun
  · exact notIllegalCommand_feedData _ s

theorem notIllegalCommand_finishEffect (s : State) : NotIllegalCommand (finishEffect s) := by
  rcases startData_cases s with ⟨-, -, h⟩ | ⟨-, h⟩ <;> rw [finishEffect, h]
  · exact nofun
  · dsimp only
    split
    · exact nofun
    · rcases detFinish_cases (enterData s) with ⟨-, h⟩ | ⟨-, h⟩ <;> rw [h] <;> exact nofun

/-- Every command runs in the frame of its row of the table, and its body does not raise IllegalCommand (R127). -/
theorem exec_eq_perform (i : Instr) :
    ∃ body : State → Effect, (∀ s, exec i s = perform (classOf i) body s) ∧
      ∀ s, s.phase ≠ .error → NotIllegalCommand (body s) := by
  cases i with
  | nop => exact ⟨fun s => .ok s, fun _ => rfl, fun _ hp => hp⟩
  | bege => exact ⟨fun s => .ok (openOperation .enc s), fun _ => rfl, fun _ _ => nofun⟩
  | begd => exact ⟨fun s => .ok (openOperation .det s), fun _ => rfl, fun _ _ => nofun⟩
  | gbits k v => exact ⟨_, fun _ => rfl, fun _ => notIllegalCommand_loadGenerator (payloadBits k v)⟩
  | gchr c => exact ⟨_, fun _ => rfl, fun _ => notIllegalCommand_gchrEffect c⟩
  | dbits k v => exact ⟨_, fun _ => rfl, fun s _ => notIllegalCommand_feedData (payloadBits k v) s⟩
  | dchr c => exact ⟨_, fun _ => rfl, fun s _ => notIllegalCommand_dchrEffect c s⟩
  | finish => exact ⟨_, fun _ => rfl, fun s _ => notIllegalCommand_finishEffect s⟩

variable {i : Instr}

/-! One lemma for each entry of the table: "no", "ignored" and "yes". -/

theorem exec_of_no (h : legality (classOf i) s.phase = .no) : exec i s = .next (errorEntry .illegalCommand s) := by
  obtain ⟨body, he, -⟩ := exec_eq_perform i
  rw [he, perform_no body h]

theorem exec_of_ignored (h : legality (classOf i) s.phase = .ignored) : exec i s = .next s := by
  obtain ⟨body, he, -⟩ := exec_eq_perform i
  rw [he, perform_ignored body h]

theorem exec_of_yes (h : legality (classOf i) s.phase = .yes) (hp : s.phase ≠ .error) :
    ∃ t, exec i s = .next t ∧ (t.phase = .error → t.ecode ≠ .illegalCommand) := by
  obtain ⟨body, he, hb⟩ := exec_eq_perform i
  exact ⟨_, (he s).trans (perform_yes body h), (hb s hp).settle⟩

theorem exec_opening (h : classOf i = .opening) : ∃ m, exec i s = .next (openOperation m s) := by
  cases i with
  | bege => exact ⟨.enc, exec_bege s⟩
  | begd => exact ⟨.det, exec_begd s⟩
  | nop | gbits | gchr | dbits | dchr | finish => cases h

end

/-- Settles O34: each clause is an entry of the table, read at the command's row and the phase's column. -/
theorem phaseLegalityTable : Obligations.PhaseLegalityTable := by
  unfold Obligations.PhaseLegalityTable
  refine fun s => ⟨exec_nop s, fun i hi => ?_, fun i hi => ⟨fun hp => exec_of_no ?_,
    fun hp => exec_of_ignored (by rw [hi, hp]; rfl), fun hp => exec_of_yes (by rw [hi, hp]; rfl) (by simp [hp])⟩,
    fun i hi => ⟨fun hp => exec_of_no ?_, fun hp => exec_of_ignored ?_, fun hp => exec_of_yes ?_ ?_⟩, fun w why h => ?_⟩
  · obtain ⟨m, he⟩ := exec_opening (s := s) hi
    exact ⟨_, he, openOperation_phase s m⟩
  · rcases hp with hp | hp | hp <;> rw [hi, hp] <;> rfl
  · rcases hi with hi | hi <;> rcases hp with hp | hp <;> rw [hi, hp] <;> rfl
  · rcases hi with hi | hi <;> rw [hi, hp] <;> rfl
  · rcases hi with hi | hi <;> rcases hp with hp | hp <;> rw [hi, hp] <;> rfl
  · rcases hp with hp | hp <;> simp [hp]
  · rw [execWord_of_illegal h, execIllegal_eq]

end Sys2Proof.Machine
end

section
/-! PROOFS. The CrcEncoder command by command (42_crc_encoder.md R140 to R143): DBITS, DCHR, END in mode ENC, and data
split over commands. -/

namespace Sys2Proof.Machine

/-! ### Feeding data bits -/

/-- Everything feeding writes (R140). -/
theorem feedBits_eq (bs : Bits) (s : State) :
    feedBits bs s =
      { s with reg := divSteps s.reg s.gen s.glen.toNat bs,
               len := BitVec.ofNat 32 (sat32 (s.len.toNat + bs.length)),
               cout := if s.mode = .enc then s.cout ++ bs else s.cout } := by
  rw [feedBits_frame, feedBits_reg, feedBits_len, feedBits_cout]
  cases hm : s.mode <;> rfl

theorem enterData_of_data {s : State} (hp : s.phase = .data) : enterData s = s := by rw [enterData, ← hp]

theorem settle_feedData (bs : Bits) (s : State) :
    settle s (feedData bs s) =
      if s.phase = .gen ∧ generatorOk s = false then errorEntry .invalidGenerator s
      else feedBits bs (enterData s) := by
  rcases feedData_cases bs s with ⟨hp, hg, h⟩ | ⟨hg, h⟩
  · rw [h, if_pos ⟨hp, hg⟩]
    rfl
  · rw [h, if_neg fun ⟨hp, hf⟩ => by simp [hg hp] at hf]
    rfl

/-- The row of the data commands in the legality table (41_control_and_generator.md R126). -/
theorem perform_data (body : State → Effect) (s : State) :
    perform .data body s = .next (
      if s.phase = .error then s
      else if s.phase = .idle ∨ s.phase = .done then errorEntry .illegalCommand s
      else settle s (body s)) := by
  cases hp : s.phase with
  | error => exact perform_ignored body (by rw [hp]; rfl)
  | gen | data => exact perform_yes body (by rw [hp]; rfl)
  | idle | done => exact perform_no body (by rw [hp]; rfl)

/-- Settles O11: the payload bits of a DBITS are k bits to feed. -/
theorem dbitsFeedsBits : Obligations.DbitsFeedsBits := by
  unfold Obligations.DbitsFeedsBits
  intro k v s _
  rw [exec_of_dataBits rfl, perform_data, settle_feedData, feedBits_eq, payloadBits_length]
  rfl

/-- The bit of a binary symbol, read from its code (30_encoding.md R75). -/
theorem symbolBit_eq_beq {c : BitVec 8} {b : Bool} (h : symbolBit c = some b) : b = (c.toNat == 0x31) := by
  rw [toNat_of_symbolBit h]
  cases b <;> rfl

/-- Settles O12: with no bit for the symbol InvalidAlphabet, else the one bit of the symbol is fed. -/
theorem dchrFeedsSymbol : Obligations.DchrFeedsSymbol := by
  unfold Obligations.DchrFeedsSymbol
  intro c s
  have hexec : exec (.dchr c) s = perform .data (dchrEffect c) s := rfl
  rw [hexec, perform_data]
  cases hs : symbolBit c with
  | none =>
    rw [if_pos (symbolBit_eq_none.mp hs), dchrEffect, hs]
    rfl
  | some b =>
    have hne : ¬(c.toNat ≠ 0x30 ∧ c.toNat ≠ 0x31) := by
      rw [← symbolBit_eq_none, hs]
      simp
    rw [if_neg hne, dchrEffect, hs, ← symbolBit_eq_beq hs]
    simp only [settle_feedData, feedBits_eq, List.length_singleton]
    rfl

/-! ### Data split over commands -/

theorem streamBits_cons_eq_some_iff {f : Instr → Option Bits} {i : Instr} {is : List Instr} {bs : Bits} :
    streamBits f (i :: is) = some bs ↔ ∃ b cs, f i = some b ∧ streamBits f is = some cs ∧ bs = b ++ cs := by
  rw [streamBits]
  cases f i <;> cases streamBits f is <;> simp [eq_comm]

theorem runCommands_cons {i : Instr} {s t : State} (is : List Instr) (h : exec i s = .next t) :
    runCommands (i :: is) s = runCommands is t := by
  rw [runCommands, h]

/-- A stream of data commands feeds the bits it carries (R140, R141). -/
theorem runCommands_of_data_stream {ds : List Instr} {m : Bits} {s : State} (hp : s.phase = .data)
    (hd : streamBits dataBits ds = some m) : runCommands ds s = .next (feedBits m s) := by
  induction ds generalizing m s with
  | nil =>
    cases hd
    rfl
  | cons i ds ih =>
    obtain ⟨b, cs, hb, hcs, rfl⟩ := streamBits_cons_eq_some_iff.mp hd
    have hexec : exec i s = .next (feedBits b s) := by
      rw [exec_data_of_feeding hb (.inl hp), enterData_of_data hp]
    rw [runCommands_cons ds hexec, ih ((feedBits_phase b s).trans hp) hcs, feedBits_append]

/-- Settles O17: the commands feed their bits one after the other, which is feeding them all. -/
theorem dataChunkingHasNoEffect : Obligations.DataChunkingHasNoEffect := by
  unfold Obligations.DataChunkingHasNoEffect
  intro ds m s hp hd
  rw [runCommands_of_data_stream hp hd.2, feedBits_eq]
  rfl

/-! ### END in mode ENC -/

/-- Everything END writes in mode ENC (R143). -/
theorem encFinish_eq (s : State) :
    encFinish s =
      { s with phase := .done, reg := checksumReg s, res := lowBits (s.glen.toNat - 1) (checksumReg s),
               cout := s.cout ++ bitsOf (s.glen.toNat - 1) (checksumReg s).toNat } := by
  have hbits : bitsOf (s.glen.toNat - 1) (lowBits (s.glen.toNat - 1) (checksumReg s)).toNat =
      bitsOf (s.glen.toNat - 1) (checksumReg s).toNat := by rw [lowBits_toNat, bitsOf_mod le_rfl]
  rw [← hbits]
  rfl

theorem reduce_zero (g : Reg64) (n : Nat) : reduce 0 g n = 0 := by simp [reduce]

theorem bitsOf_zero_right (k : Nat) : bitsOf k 0 = zeros k := by
  induction k with
  | zero => rfl
  | succ k ih => rw [bitsOf_succ, Nat.zero_testBit, ih, zeros_succ]

/-- Zero bits leave a zero register as it is. -/
theorem divSteps_zero_zeros (g : Reg64) (n k : Nat) : divSteps 0 g n (zeros k) = 0 := by
  have hstep : divStep 0 g n false = 0 := by
    rw [divStep, reduce_zero]
    simp [shiftIn, lowBits]
  rw [divSteps_zeros, Function.iterate_fixed hstep]

/-- The empty message has the checksum 0 (R143). -/
theorem checksumReg_eq_zero {s : State} (h : s.reg = 0) : checksumReg s = 0 := by
  rw [checksumReg, h, divSteps_zero_zeros, reduce_zero]

/-- Before the first data bit the register is 0 and nothing was emitted (R140, R145). -/
theorem Inv.clear_of_len_eq_zero {s : State} (h : Inv s) (hm : s.mode = .enc) (hf : Feeding s) (hl : s.len = 0) :
    s.reg = 0 ∧ s.cout = [] := by
  rcases hf with hp | ⟨hp, -⟩
  · obtain ⟨hlen, hreg⟩ := h.encData hp hm
    have hmin : min s.cout.length (2 ^ 32 - 1) = 0 := hlen.symm.trans (congrArg BitVec.toNat hl)
    have hc : s.cout = [] := List.length_eq_zero_iff.mp (by omega)
    rw [hc] at hreg
    exact ⟨hreg, hc⟩
  · obtain ⟨hreg, -, -, -, hc⟩ := h.genClear hp
    exact ⟨hreg, hc⟩

/-- Settles O13: END writes what `encFinish` writes; the invariant bounds the reduced register, and makes it 0 when no
bit was fed. -/
theorem endEncodeStoresChecksum : Obligations.EndEncodeStoresChecksum := by
  unfold Obligations.EndEncodeStoresChecksum
  intro s hm hf n r
  have hr : checksumReg (enterData s) = r := by
    rw [checksumReg, divSteps_zeros]
    rfl
  have hend : exec .finish s = .next (encFinish (enterData s)) := exec_finish_enc hf hm
  refine ⟨?_, fun hi => ?_, fun hi hl => ?_⟩
  · rw [hend, encFinish_eq, hr, bitsOf_mod le_rfl]
    rfl
  · have hlt := (inv_enterData hi hf).checksumReg_lt ((inv_enterData hi hf).generatorValid (.inl rfl))
    exact hr ▸ lowBits_eq_self hlt
  · obtain ⟨hreg, hcout⟩ := hi.clear_of_len_eq_zero hm hf hl
    have hzero : checksumReg (enterData s) = 0 := checksumReg_eq_zero hreg
    have hlow : lowBits (n - 1) 0 = 0 := lowBits_eq_self (Nat.two_pow_pos _)
    have hbits : s.cout ++ bitsOf (n - 1) (0 : Reg64).toNat = List.replicate (n - 1) false := by
      rw [hcout]
      exact bitsOf_zero_right (n - 1)
    rw [hend, encFinish_eq, hzero, ← hbits, enterData_glen, hlow]
    rfl

end Sys2Proof.Machine
end

section
/-! PROOFS. Whole operations (42_crc_encoder.md R144, R147): what a run of an operation's commands answers, for any
chunking of the generator and of the data. -/

namespace Sys2Proof.Machine

/-! ### From opening to END, in either mode -/

section
variable {s t : State}

theorem runCommands_append {is : List Instr} (js : List Instr) (h : runCommands is s = .next t) :
    runCommands (is ++ js) s = runCommands js t := by
  induction is generalizing s with
  | nil =>
    cases h
    rfl
  | cons i is ih =>
    obtain ⟨u, hu⟩ := exec_next i s
    rw [runCommands_cons is hu] at h
    rw [List.cons_append, runCommands_cons _ hu, ih h]

theorem runCommands_singleton (i : Instr) (s : State) : runCommands [i] s = exec i s := by
  obtain ⟨t, ht⟩ := exec_next i s
  rw [runCommands_cons [] ht, ht]
  rfl

/-- END with a valid generator in PHASE GEN acts as in PHASE DATA (R142). -/
theorem exec_finish_of_feeding (hf : Feeding s) : exec .finish s = exec .finish (enterData s) := by
  have hstart : startData (enterData s) = startData s :=
    (startData_of_feeding (.inl rfl)).trans (startData_of_feeding hf).symm
  have hl : legality .finish (enterData s).phase = .yes := rfl
  rw [exec, exec, execFinish, execFinish, perform_yes _ (legality_of_feeding hf).2, perform_yes _ hl,
    finishEffect_begins.congr hstart, settle_enterData]

/-- A stream of data commands, which may be empty, and END. -/
theorem runCommands_data_finish {ds : List Instr} {m : Bits} (hf : Feeding s)
    (hd : streamBits dataBits ds = some m) :
    runCommands (ds ++ [.finish]) s = exec .finish (feedBits m (enterData s)) := by
  cases ds with
  | nil =>
    cases hd
    exact (runCommands_singleton _ s).trans (exec_finish_of_feeding hf)
  | cons i ds =>
    obtain ⟨b, cs, hb, hcs, rfl⟩ := streamBits_cons_eq_some_iff.mp hd
    have hp : (feedBits b (enterData s)).phase = .data := feedBits_phase b _
    rw [List.cons_append, runCommands_cons _ (exec_data_of_feeding hb hf),
      runCommands_append _ (runCommands_of_data_stream hp hcs), runCommands_singleton, feedBits_append]

end

/-- The state of an operation that was opened with generator `g` and fed the bits `m`, before END. -/
def fedState (md : Mode) (g m : Bits) (s : State) : State :=
  feedBits m (enterData (appendGenerator g (openOperation md s)))

section
variable {s : State} {g : Bits} (hc : s.config.valid = true) (hg : validGenerator s.config g = true)
include hc hg

theorem glen_of_validGenerator : (BitVec.ofNat 7 g.length).toNat = g.length := by
  have := length_le_64_of_validGenerator hc hg
  rw [BitVec.toNat_ofNat]
  omega

theorem feeding_appendGenerator_openOperation (md : Mode) : Feeding (appendGenerator g (openOperation md s)) := by
  have hw := generatorOfWidth_of_validGenerator hc hg
  have hgen : (appendGenerator g (openOperation md s)).gen = BitVec.ofNat 64 (bitsVal g) := by
    simp [appendGenerator_eq]
  have hglen : (appendGenerator g (openOperation md s)).glen.toNat = g.length := by
    simpa [appendGenerator_eq] using glen_of_validGenerator hc hg
  refine .inr ⟨rfl, generatorOk_iff.mpr ?_⟩
  rw [hgen, hglen]
  exact ⟨hw.two_le, hw.leading⟩

/-- A whole operation is END in the state its generator and its data lead to, however they are split. -/
theorem runCommands_operation {md : Mode} {i : Instr} {gs ds : List Instr} {m : Bits}
    (hi : exec i s = .next (openOperation md s)) (hgs : carriesGenerator gs g) (hds : carriesData ds m) :
    runCommands (i :: gs ++ ds ++ [.finish]) s = exec .finish (fedState md g m s) := by
  have hfit : (openOperation md s).glen.toNat + g.length ≤ (openOperation md s).config.nmax := by
    simpa using (validGenerator_iff.mp hg).2.1
  have hgen : runCommands gs (openOperation md s) = .next (appendGenerator g (openOperation md s)) :=
    runCommands_of_generator_stream hc rfl hgs.2 hfit
  rw [List.append_assoc, List.cons_append, runCommands_cons _ hi, runCommands_append _ hgen,
    runCommands_data_finish (feeding_appendGenerator_openOperation hc hg md) hds.2]
  rfl

theorem fedState_eq (md : Mode) (m : Bits) :
    fedState md g m s =
      { s with phase := .data, mode := md, gen := BitVec.ofNat 64 (bitsVal g), glen := BitVec.ofNat 7 g.length,
               len := BitVec.ofNat 32 (sat32 m.length),
               reg := divSteps 0 (BitVec.ofNat 64 (bitsVal g)) g.length m, res := 0, hasErr := false,
               cout := if md = .enc then m else [], ecode := .none } := by
  have hglen := glen_of_validGenerator hc hg
  simp [fedState, feedBits_eq, appendGenerator_eq, enterData, openOperation, hglen]

end

/-! ### Encode operations -/

/-- The value of a remainder is the reduced register (40_polynomial_register.md R102). -/
theorem ofNat_bitsVal_rem {c : Config} {g : Bits} (hc : c.valid = true) (hg : validGenerator c g = true) (s : Bits) :
    BitVec.ofNat 64 (bitsVal (rem s g)) = remReg s (BitVec.ofNat 64 (bitsVal g)) g.length := by
  have hw := generatorOfWidth_of_validGenerator hc hg
  have hlt : (remReg s (BitVec.ofNat 64 (bitsVal g)) g.length).toNat < 2 ^ (g.length - 1) :=
    hw.reduce_lt (divSteps_lt s (Nat.two_pow_pos _))
  rw [rem_eq_bitsOf, bitsVal_bitsOf, Nat.mod_eq_of_lt hlt, BitVec.ofNat_toNat, BitVec.setWidth_eq]

/-- Appending zeros multiplies by a power of x (00_scope.md R11). -/
theorem seqPoly_append_zeros (s : Bits) (k : Nat) : seqPoly (s ++ zeros k) = seqPoly s * Polynomial.X ^ k := by
  induction k with
  | zero => simp [zeros]
  | succ k ih =>
    have hz : s ++ zeros (k + 1) = s ++ zeros k ++ [false] := by
      rw [zeros, List.replicate_succ', ← List.append_assoc, zeros]
    rw [hz, seqPoly_append_singleton, ih, pow_succ, mul_assoc]
    simp [bitCoeff]

/-- The checksum of the message `m` under the generator `g` (42_crc_encoder.md R144). -/
def checksum (g m : Bits) : Bits := rem (m ++ zeros (g.length - 1)) g

theorem seqPoly_checksum {c : Config} {g : Bits} (hc : c.valid = true) (hg : validGenerator c g = true) (m : Bits) :
    seqPoly (checksum g m) = (seqPoly m * Polynomial.X ^ (g.length - 1)) %ₘ seqPoly g := by
  rw [checksum, seqPoly_rem hc hg, seqPoly_append_zeros]

/-- The state at the end of an encode operation (R144). -/
def encodedState (g m : Bits) (s : State) : State :=
  { s with phase := .done, mode := .enc, gen := BitVec.ofNat 64 (bitsVal g), glen := BitVec.ofNat 7 g.length,
           len := BitVec.ofNat 32 (sat32 m.length), reg := BitVec.ofNat 64 (bitsVal (checksum g m)),
           res := BitVec.ofNat 64 (bitsVal (checksum g m)), hasErr := false, cout := m ++ checksum g m,
           ecode := .none }

section
variable {s : State} {g : Bits} (hc : s.config.valid = true) (hg : validGenerator s.config g = true)
include hc hg

/-- The extension zeros of END complete the division of the extended message (R143, R144). -/
theorem checksumReg_fedState (md : Mode) (m : Bits) :
    checksumReg (fedState md g m s) = BitVec.ofNat 64 (bitsVal (checksum g m)) := by
  rw [checksum, ofNat_bitsVal_rem hc hg, remReg, divSteps_append, fedState_eq hc hg, checksumReg,
    glen_of_validGenerator hc hg]

theorem encFinish_fedState (m : Bits) : encFinish (fedState .enc g m s) = encodedState g m s := by
  have hlen : (checksum g m).length = g.length - 1 := rem_length _ _
  have hlow : lowBits (g.length - 1) (BitVec.ofNat 64 (bitsVal (checksum g m))) =
      BitVec.ofNat 64 (bitsVal (checksum g m)) := lowBits_eq_self (toNat_ofNat_bitsVal_lt hlen.le)
  have hbits : bitsOf (g.length - 1) (BitVec.ofNat 64 (bitsVal (checksum g m))).toNat = checksum g m := by
    have hn := length_le_64_of_validGenerator hc hg
    rw [toNat_ofNat_bitsVal (by omega), ← hlen, bitsOf_bitsVal]
  rw [encFinish_eq, checksumReg_fedState hc hg, fedState_eq hc hg]
  simp only [glen_of_validGenerator hc hg, hlow, hbits]
  rfl

theorem runCommands_encode {gs ds : List Instr} {m : Bits} (hgs : carriesGenerator gs g) (hds : carriesData ds m) :
    runCommands (.bege :: gs ++ ds ++ [.finish]) s = .next (encodedState g m s) := by
  have hp : (fedState .enc g m s).phase = .data := by rw [fedState_eq hc hg]
  have hm : (fedState .enc g m s).mode = .enc := by rw [fedState_eq hc hg]
  rw [runCommands_operation hc hg (exec_bege s) hgs hds, exec_finish_enc (.inl hp) hm, enterData_of_data hp,
    encFinish_fedState hc hg]

end

/-- Settles O23: the run ends in `encodedState`, whose checksum is a remainder. -/
theorem encodeOperationResult : Obligations.EncodeOperationResult := by
  unfold Obligations.EncodeOperationResult
  intro s gs ds g m hc hg hgs hds n r
  exact ⟨runCommands_encode hc hg hgs hds, rem_length _ _, seqPoly_checksum hc hg m⟩

/-- Settles O28: the bits before the checksum are the message, so the second operation has the same result. -/
theorem checksumIsRederivable : Obligations.ChecksumIsRederivable := by
  unfold Obligations.ChecksumIsRederivable
  intro s t gs gs' ds ds' g m hc hg hgs hgs' hds hrun hds'
  cases (runCommands_encode hc hg hgs hds).symm.trans hrun
  have hcout : (encodedState g m s).cout = m ++ checksum g m := rfl
  have hmessage : (m ++ checksum g m).take ((m ++ checksum g m).length - (g.length - 1)) = m := by
    rw [List.length_append, checksum, rem_length, Nat.add_sub_cancel, List.take_left]
  rw [hcout, hmessage] at hds'
  exact ⟨_, runCommands_encode (s := encodedState g m s) hc hg hgs' hds', rfl, rfl, rfl⟩

end Sys2Proof.Machine
end

section
/-! PROOFS. The syndrome detector (43_syndrome_detector.md R160 to R165): END in mode DET, whole detect operations, and
which errors on a codeword they find. -/

namespace Sys2Proof.Machine

/-! ### END in mode DET (R160, R162) -/

/-- The bits of a register above the low k are not in `lowBits k`, so the test for zero covers just those k. -/
theorem lowBits_ne_zero_iff (k : Nat) (r : Reg64) : lowBits k r ≠ 0 ↔ r.toNat % 2 ^ k ≠ 0 := by
  rw [← lowBits_toNat, not_iff_not, ← BitVec.toNat_inj]
  rfl

theorem ne_zero_iff_exists_getLsbD {r : Reg64} {k : Nat} (h : r.toNat < 2 ^ k) :
    r ≠ 0 ↔ ∃ j, j < k ∧ r.getLsbD j = true := by
  constructor
  · intro hr
    obtain ⟨j, hj⟩ := Nat.exists_testBit_of_ne_zero fun h0 => hr (BitVec.eq_of_toNat_eq h0)
    refine ⟨j, ?_, hj⟩
    by_contra hk
    exact Bool.false_ne_true ((getLsbD_of_toNat_lt h (Nat.le_of_not_lt hk)).symm.trans hj)
  · rintro ⟨j, -, hj⟩ rfl
    simp at hj

section
variable {s : State}

theorem exec_finish_det_short (hf : Feeding s) (hm : s.mode = .det) (hl : s.len.toNat < s.glen.toNat) :
    exec .finish s = .next (errorEntry .inputTooShort s) := by
  have he : finishEffect s = .error .inputTooShort := by
    simp only [finishEffect, startData_of_feeding hf, enterData_mode, hm]
    exact if_pos hl
  rw [exec, execFinish, perform_yes _ (legality_of_feeding hf).2, he]
  rfl

end

/-- Settles O14: END answers what `exec_finish_det_short` or `exec_finish_det` says, by the length of the codeword. -/
theorem endDetectStoresSyndrome : Obligations.EndDetectStoresSyndrome := by
  unfold Obligations.EndDetectStoresSyndrome
  intro s hm hf n r
  rcases Nat.lt_or_ge s.len.toNat n with hl | hl
  · rw [if_pos hl, exec_finish_det_short hf hm hl]
  · have herr : decide (r.toNat % 2 ^ (n - 1) ≠ 0) = (lowBits (n - 1) r != 0) := by
      rw [Bool.eq_iff_iff, decide_eq_true_iff, bne_iff_ne, lowBits_ne_zero_iff]
    rw [if_neg (Nat.not_lt.mpr hl), exec_finish_det hf hm hl, herr]
    rfl

/-- Settles O15: RES holds N-1 bits and no more, so a nonzero RES has a bit there. -/
theorem syndromeTestCoversEveryBit : Obligations.SyndromeTestCoversEveryBit := by
  unfold Obligations.SyndromeTestCoversEveryBit
  intro s _ hp hm hl
  have hne (r : Reg64) : (r != 0) = true ↔ r ≠ 0 := bne_iff_ne
  exact ⟨_, exec_finish_det (.inl hp) hm hl, rfl,
    (hne _).trans (ne_zero_iff_exists_getLsbD (lowBits_toNat_lt _ _)), hne _⟩

/-! ### Detect operations (R161) -/

theorem bitsVal_eq_zero_iff (s : Bits) : bitsVal s = 0 ↔ s = zeros s.length := by
  constructor
  · intro h
    rw [← bitsOf_zero_right, ← h, bitsOf_bitsVal]
  · intro h
    rw [h, ← bitsOf_zero_right, bitsVal_bitsOf, Nat.zero_mod]

theorem bitsVal_rem_eq_zero_iff (c g : Bits) : bitsVal (rem c g) = 0 ↔ rem c g = zeros (g.length - 1) := by
  rw [bitsVal_eq_zero_iff, rem_length]

/-- The state at the end of a detect operation (R161). -/
def detectedState (g c : Bits) (s : State) : State :=
  { s with phase := .done, mode := .det, gen := BitVec.ofNat 64 (bitsVal g), glen := BitVec.ofNat 7 g.length,
           len := BitVec.ofNat 32 (sat32 c.length), reg := BitVec.ofNat 64 (bitsVal (rem c g)),
           res := BitVec.ofNat 64 (bitsVal (rem c g)), hasErr := decide (bitsVal (rem c g) ≠ 0), cout := [],
           ecode := .none }

theorem fedState_phase (md : Mode) (g m : Bits) (s : State) : (fedState md g m s).phase = .data := feedBits_phase m _

theorem fedState_mode (md : Mode) (g m : Bits) (s : State) : (fedState md g m s).mode = md := feedBits_mode m _

section
variable {s : State} {g : Bits} (hc : s.config.valid = true) (hg : validGenerator s.config g = true)
include hc hg

/-- The counter saturates far above the length of a generator, so END compares the lengths themselves. -/
theorem len_lt_glen_fedState_iff (md : Mode) (c : Bits) :
    (fedState md g c s).len.toNat < (fedState md g c s).glen.toNat ↔ c.length < g.length := by
  have hn := length_le_64_of_validGenerator hc hg
  rw [fedState_eq hc hg]
  simp only [glen_of_validGenerator hc hg, toNat_ofNat_sat32]
  rw [sat32]
  omega

/-- What END writes in mode DET after the whole codeword was fed (R160, R161). -/
theorem writeHasErr_storeResult_fedState (c : Bits) :
    writeHasErr (storeResult (remReg c (BitVec.ofNat 64 (bitsVal g)) g.length) (fedState .det g c s)) =
      detectedState g c s := by
  have hlen : (rem c g).length = g.length - 1 := rem_length _ _
  have hn := length_le_64_of_validGenerator hc hg
  have hlow : lowBits (g.length - 1) (BitVec.ofNat 64 (bitsVal (rem c g))) = BitVec.ofNat 64 (bitsVal (rem c g)) :=
    lowBits_eq_self (toNat_ofNat_bitsVal_lt hlen.le)
  have herr : (BitVec.ofNat 64 (bitsVal (rem c g)) != 0) = decide (bitsVal (rem c g) ≠ 0) := by
    rw [Bool.eq_iff_iff, decide_eq_true_iff, bne_iff_ne, Ne, ← BitVec.toNat_inj, toNat_ofNat_bitsVal (by omega)]
    rfl
  rw [← ofNat_bitsVal_rem hc hg, fedState_eq hc hg, detectedState, ← herr]
  simp only [writeHasErr, storeResult, glen_of_validGenerator hc hg, hlow]
  rfl

section
variable {gs cs : List Instr} {c : Bits} (hgs : carriesGenerator gs g) (hcs : carriesData cs c)
include hgs hcs

theorem runCommands_detect (hl : g.length ≤ c.length) :
    runCommands (.begd :: gs ++ cs ++ [.finish]) s = .next (detectedState g c s) := by
  have hlen : (fedState .det g c s).glen.toNat ≤ (fedState .det g c s).len.toNat :=
    Nat.le_of_not_lt (mt (len_lt_glen_fedState_iff hc hg .det c).mp (Nat.not_lt.mpr hl))
  have hreg : reduce (fedState .det g c s).reg (fedState .det g c s).gen (fedState .det g c s).glen.toNat =
      remReg c (BitVec.ofNat 64 (bitsVal g)) g.length := by
    rw [fedState_eq hc hg, glen_of_validGenerator hc hg, remReg]
  rw [runCommands_operation hc hg (exec_begd s) hgs hcs,
    exec_finish_det (.inl (fedState_phase ..)) (fedState_mode ..) hlen, hreg, enterData_of_data (fedState_phase ..),
    writeHasErr_storeResult_fedState hc hg]

/-- A codeword shorter than the generator is refused (R160). -/
theorem runCommands_detect_short (hl : c.length < g.length) :
    runCommands (.begd :: gs ++ cs ++ [.finish]) s = .next (errorEntry .inputTooShort (fedState .det g c s)) := by
  rw [runCommands_operation hc hg (exec_begd s) hgs hcs,
    exec_finish_det_short (.inl (fedState_phase ..)) (fedState_mode ..)
      ((len_lt_glen_fedState_iff hc hg .det c).mpr hl)]

end

end

/-- Settles O24: the run ends in `detectedState`. -/
theorem detectOperationResult : Obligations.DetectOperationResult := by
  unfold Obligations.DetectOperationResult
  exact fun s gs cs g c hc hg hgs hcs hl => runCommands_detect hc hg hgs hcs hl

end Sys2Proof.Machine
end

section
/-! PROOFS. Error detection as divisibility of polynomials over GF(2) (43_syndrome_detector.md R163 to R165): HASERR is 0
exactly when the generator divides what was fed. -/

namespace Sys2Proof.Machine

open Polynomial

/-! ### The polynomial of a concatenation and of a generator (00_scope.md R11) -/

theorem seqPoly_nil : seqPoly [] = 0 := rfl

theorem seqPoly_append (s t : Bits) : seqPoly (s ++ t) = seqPoly s * X ^ t.length + seqPoly t := by
  induction t using List.reverseRecOn with
  | nil => simp [seqPoly]
  | append_singleton t b ih =>
    rw [← List.append_assoc, seqPoly_append_singleton, ih, seqPoly_append_singleton, List.length_append,
      List.length_singleton]
    ring

theorem seqPoly_zeros (k : Nat) : seqPoly (zeros k) = 0 := by
  simpa [seqPoly_nil] using seqPoly_append_zeros [] k

theorem seqPoly_cons (b : Bool) (s : Bits) : seqPoly (b :: s) = C (bitCoeff b) * X ^ s.length + seqPoly s := by
  rw [← List.singleton_append, seqPoly_append, ← List.nil_append [b], seqPoly_append_singleton, seqPoly_nil, zero_mul,
    zero_add]

theorem seqPoly_eq_zero_iff (s : Bits) : seqPoly s = 0 ↔ s = zeros s.length := by
  refine ⟨fun h => eq_of_seqPoly_eq (by simp) (by rw [h, seqPoly_zeros]), fun h => ?_⟩
  rw [h, seqPoly_zeros]

/-- The generator `1` followed by zeros is a power of x (R165). -/
theorem seqPoly_true_cons_zeros (k : Nat) : seqPoly (true :: zeros k) = X ^ k := by
  simp [seqPoly_cons, seqPoly_zeros, bitCoeff]

theorem seqPoly_degree_lt {s : Bits} (h : s.length ≤ 64) : (seqPoly s).degree < s.length := by
  rw [seqPoly_eq_regPoly s h]
  exact regPoly_degree_lt (toNat_ofNat_bitsVal_lt le_rfl)

/-- A generator whose lowest bit is 1 is coprime to x (R164 (b)). -/
theorem isCoprime_seqPoly_X {g : Bits} (h : g.getLast? = some true) : IsCoprime (seqPoly g) X := by
  obtain ⟨t, rfl⟩ := List.getLast?_eq_some_iff.mp h
  refine ⟨1, -seqPoly t, ?_⟩
  rw [seqPoly_append_singleton]
  simp [bitCoeff]

section
variable {c : Config} {g : Bits} (hc : c.valid = true) (hg : validGenerator c g = true)
include hc hg

theorem seqPoly_monic : (seqPoly g).Monic := by
  rw [seqPoly_eq_regPoly g (length_le_64_of_validGenerator hc hg)]
  exact (generatorOfWidth_of_validGenerator hc hg).monic

theorem seqPoly_degree : (seqPoly g).degree = (g.length - 1 : Nat) := by
  rw [seqPoly_eq_regPoly g (length_le_64_of_validGenerator hc hg)]
  exact (generatorOfWidth_of_validGenerator hc hg).degree

/-! ### When a remainder is zero -/

theorem rem_eq_zeros_iff_dvd (s : Bits) : rem s g = zeros (g.length - 1) ↔ seqPoly g ∣ seqPoly s := by
  rw [← modByMonic_eq_zero_iff_dvd (seqPoly_monic hc hg), ← seqPoly_rem hc hg, seqPoly_eq_zero_iff, rem_length]

/-- The codeword of a message is a multiple of the generator (R163). -/
theorem dvd_seqPoly_codeword (m : Bits) : seqPoly g ∣ seqPoly (m ++ checksum g m) := by
  have hlen : (checksum g m).length = g.length - 1 := rem_length _ _
  rw [seqPoly_append, hlen, seqPoly_checksum hc hg, modByMonic_eq_sub_mul_div, CharTwo.sub_eq_add, ← add_assoc,
    CharTwo.add_self_eq_zero, zero_add]
  exact dvd_mul_right _ _

/-- A burst within N-1 positions is no multiple of a generator whose lowest bit is 1 (R164 (b)). -/
theorem not_dvd_seqPoly_burst {b : Bits} (i k : Nat) (hlast : g.getLast? = some true) (hb : b.length ≤ g.length - 1)
    (hone : true ∈ b) : ¬ seqPoly g ∣ seqPoly (zeros i ++ b ++ zeros k) := by
  have hn := length_le_64_of_validGenerator hc hg
  have hne : seqPoly b ≠ 0 := by
    rw [Ne, seqPoly_eq_zero_iff]
    intro hz
    rw [hz] at hone
    exact Bool.false_ne_true (List.eq_of_mem_replicate hone).symm
  have hdeg : (seqPoly b).degree < (seqPoly g).degree := by
    rw [seqPoly_degree hc hg]
    exact (seqPoly_degree_lt (by omega)).trans_le (Nat.cast_le.mpr hb)
  rw [seqPoly_append_zeros, seqPoly_append, seqPoly_zeros, zero_mul, zero_add]
  intro hdvd
  exact (seqPoly_monic hc hg).not_dvd_of_degree_lt hne hdeg
    ((isCoprime_seqPoly_X hlast).pow_right.dvd_of_dvd_mul_right hdvd)

/-- A power of x is a multiple of no generator but a power of x (R165). -/
theorem dvd_X_pow_iff (j : Nat) :
    seqPoly g ∣ X ^ j ↔ g = true :: zeros (g.length - 1) ∧ g.length - 1 ≤ j := by
  have hn := (validGenerator_iff.mp hg).1
  constructor
  · intro hdvd
    obtain ⟨i, hij, hass⟩ := (dvd_prime_pow prime_X j).mp hdvd
    have hpow : seqPoly g = X ^ i := eq_of_monic_of_associated (seqPoly_monic hc hg) (monic_X_pow i) hass
    have hi : g.length - 1 = i := by
      have hdeg := seqPoly_degree hc hg
      rw [hpow, degree_X_pow] at hdeg
      exact (Nat.cast_inj.mp hdeg).symm
    refine ⟨eq_of_seqPoly_eq ?_ ?_, hi ▸ hij⟩
    · rw [List.length_cons, zeros_length]
      omega
    · rw [hpow, seqPoly_true_cons_zeros, hi]
  · rintro ⟨hshape, hj⟩
    rw [hshape, seqPoly_true_cons_zeros]
    exact pow_dvd_pow X hj

end

/-! ### Flipped bits (00_scope.md R5) -/

theorem bitCoeff_not (b : Bool) : bitCoeff (!b) = 1 + bitCoeff b := by
  cases b <;> decide

/-- Flipping one bit adds a power of x (R165). -/
theorem seqPoly_flipAt {j : Nat} {c : Bits} (h : j < c.length) :
    seqPoly (flipAt j c) = seqPoly c + X ^ (c.length - 1 - j) := by
  induction j, c using flipAt.induct with
  | case1 j => simp at h
  | case2 b bs =>
    rw [flipAt, seqPoly_cons, seqPoly_cons, bitCoeff_not, C_add, C_1, List.length_cons, Nat.add_sub_cancel,
      Nat.sub_zero]
    ring
  | case3 j b bs ih =>
    have hexp : (b :: bs).length - 1 - (j + 1) = bs.length - 1 - j := by
      rw [List.length_cons]
      omega
    rw [flipAt, seqPoly_cons, seqPoly_cons, ih (Nat.lt_of_succ_lt_succ h), flipAt_length, hexp, add_assoc]

theorem injectError_eq_ok_iff {c c' : Bits} {p : Nat} :
    injectError c p = .ok c' ↔ 1 ≤ p ∧ p ≤ c.length ∧ c' = flipAt (p - 1) c := by
  rcases Decidable.em (p < 1 ∨ p > c.length) with h | h
  · rw [injectError_of_outside h]
    exact ⟨nofun, fun ⟨h₁, h₂, _⟩ => by omega⟩
  · have h₁ : 1 ≤ p := by omega
    have h₂ : p ≤ c.length := by omega
    rw [injectError_of_inside h₁ h₂, Except.ok.injEq, and_iff_right h₁, and_iff_right h₂, eq_comm]

/-! ### What a detect operation finds -/

theorem hasErr_detectedState_iff (g c : Bits) (s : State) :
    (detectedState g c s).hasErr = true ↔ rem c g ≠ zeros (g.length - 1) := by
  rw [detectedState, decide_eq_true_iff, Ne, bitsVal_rem_eq_zero_iff]

/-- The codeword of a message is not shorter than the generator unless the message is empty (R163). -/
theorem length_codeword_lt_iff {c : Config} {g : Bits} (hg : validGenerator c g = true) (m : Bits) :
    (m ++ checksum g m).length < g.length ↔ m = [] := by
  have hn := (validGenerator_iff.mp hg).1
  rw [List.length_append, checksum, rem_length, ← List.length_eq_zero_iff]
  omega

section
variable {s : State} {g : Bits} (hc : s.config.valid = true) (hg : validGenerator s.config g = true)
include hc hg

/-- HASERR is 0 exactly when the generator divides what was fed. -/
theorem hasErr_detectedState_eq_false_iff (c : Bits) :
    (detectedState g c s).hasErr = false ↔ seqPoly g ∣ seqPoly c := by
  rw [← rem_eq_zeros_iff_dvd hc hg, ← Bool.not_eq_true, hasErr_detectedState_iff, not_not]

end

/-- Settles O25: the generator divides the codeword, which is long enough unless the message is empty. -/
theorem encodeThenDetectFindsNoError : Obligations.EncodeThenDetectFindsNoError := by
  unfold Obligations.EncodeThenDetectFindsNoError
  intro s t gs gs' ds cs g m hc hg hgs hgs' hds hrun hcs
  cases (runCommands_encode hc hg hgs hds).symm.trans hrun
  have hlen := length_codeword_lt_iff hg m
  have hcs' : carriesData cs (m ++ checksum g m) := hcs
  by_cases hm : m = []
  · exact ⟨_, runCommands_detect_short (s := encodedState g m s) hc hg hgs' hcs' (hlen.mpr hm),
      fun hne => absurd hm hne, fun _ => ⟨rfl, rfl⟩⟩
  · have hdvd := dvd_seqPoly_codeword hc hg m
    refine ⟨_, runCommands_detect (s := encodedState g m s) hc hg hgs' hcs' (Nat.le_of_not_lt (mt hlen.mp hm)),
      fun _ => ⟨rfl, ?_, ?_⟩, fun he => absurd he hm⟩
    · exact (hasErr_detectedState_eq_false_iff (s := encodedState g m s) hc hg _).mpr hdvd
    · exact congrArg (BitVec.ofNat 64) ((bitsVal_rem_eq_zero_iff _ _).mpr ((rem_eq_zeros_iff_dvd hc hg _).mpr hdvd))

/-- Settles O26: the remainder of the fed bits is that of the error pattern, so HASERR is 0 exactly when the generator
divides the pattern. -/
theorem errorPatternDetection : Obligations.ErrorPatternDetection := by
  unfold Obligations.ErrorPatternDetection
  refine ⟨fun s gs cs g c e hc hg hgs hl hrem hle hcs => ?_, by decide, by decide⟩
  have hlen : g.length ≤ (xorBits c e).length := by
    rw [xorBits_length hle.symm, hle]
    exact hl
  have hsyn : rem (xorBits c e) g = rem e g := (remIsLinear s.config c e g hc hg hle.symm).2 hrem
  have herr : (detectedState g (xorBits c e) s).hasErr = true ↔ rem e g ≠ zeros (g.length - 1) := by
    rw [hasErr_detectedState_iff, hsyn]
  have hdvd := rem_eq_zeros_iff_dvd hc hg e
  refine ⟨_, runCommands_detect hc hg hgs hcs hlen, rfl, herr, fun hd => ?_, fun a b z hlast he hb hone => ?_⟩
  · rw [← Bool.not_eq_true, herr, not_not]
    exact hdvd.mpr hd
  · rw [herr, Ne, hdvd, he]
    exact not_dvd_seqPoly_burst hc hg _ _ hlast hb hone

/-- Settles O27: the flip adds a power of x to a multiple of the generator, so HASERR is 0 exactly when the generator
divides that power. -/
theorem singleBitDetection : Obligations.SingleBitDetection := by
  unfold Obligations.SingleBitDetection
  intro s gs cs g m c c' p hc hg hgs hm hcw hinj hcs
  have hcw' : c = m ++ checksum g m := hcw
  obtain ⟨hp, hpc, rfl⟩ := injectError_eq_ok_iff.mp hinj
  have hlen : g.length ≤ c.length := by
    rw [hcw']
    exact Nat.le_of_not_lt (mt (length_codeword_lt_iff hg m).mp hm)
  have hmult : seqPoly g ∣ seqPoly c := hcw' ▸ dvd_seqPoly_codeword hc hg m
  have herr : (detectedState g (flipAt (p - 1) c) s).hasErr = false ↔
      g = true :: zeros (g.length - 1) ∧ g.length - 1 ≤ c.length - 1 - (p - 1) := by
    rw [hasErr_detectedState_eq_false_iff hc hg, seqPoly_flipAt (by omega), dvd_add_right hmult, dvd_X_pow_iff hc hg]
  refine ⟨_, runCommands_detect hc hg hgs hcs (by rwa [flipAt_length]), rfl, fun hshape => ?_, fun hshape => ?_⟩
  · rw [← Bool.not_eq_false, herr]
    exact fun h => hshape h.1
  · have hn := (validGenerator_iff.mp hg).1
    rw [herr, and_iff_right hshape]
    omega

end Sys2Proof.Machine
end

section
/-! PROOFS. Errors (60_exceptions.md R201 to R206): which error a command raises and what raising it writes, the order of
errors within one command, PHASE ERROR, and the ways out of it. -/

namespace Sys2Proof.Machine

/-! ### Error entry (R204) -/

section
variable {i : Instr} {s t : State}

/-- Raising an error is the one way into PHASE ERROR. -/
theorem exec_raised (h : exec i s = .next t) (hs : s.phase ≠ .error) (ht : t.phase = .error) : Raised s t := by
  rcases exec_cases h with ⟨-, rfl⟩ | ⟨-, rfl⟩ | ⟨-, rfl⟩ | ⟨-, -, hr⟩ | ⟨bs, -, -, rfl⟩ | ⟨bs, -, -, rfl⟩ |
    ⟨-, -, -, rfl⟩ | ⟨-, -, -, -, rfl⟩
  · exact absurd ht hs
  · cases ht
  · cases ht
  · exact hr
  · exact absurd ht hs
  · simp at ht
  · cases ht
  · cases ht

theorem execWord_raised {w : Word} (h : execWord w s = .next t) (hs : s.phase ≠ .error) (ht : t.phase = .error) :
    Raised s t := by
  rcases execWord_cases h with ⟨i, -, he⟩ | ⟨hp, -⟩ | hr
  · exact exec_raised he hs ht
  · exact absurd hp hs
  · exact hr

end

/-- Settles O29: the state after a raised error is `errorEntry` of the state before it. -/
theorem errorsArePrecise : Obligations.ErrorsArePrecise := by
  unfold Obligations.ErrorsArePrecise
  intro w s t hs h ht
  obtain ⟨e, -, hne, -, rfl⟩ := execWord_raised h hs ht
  exact ⟨rfl, hne⟩

/-! ### PHASE ERROR (R205) and the ways out of it (R206) -/

section
variable {i : Instr} {s : State}

theorem execWord_of_legal {w : Word} (h : decode w = .legal i) : execWord w s = exec i s := by
  rw [execWord, h]

/-- In PHASE ERROR every command but BEGE and BEGD leaves the state as it is. -/
theorem exec_of_phase_error (hp : s.phase = .error) (hi : classOf i ≠ .opening) : exec i s = .next s := by
  cases i with
  | nop => exact exec_nop s
  | bege | begd => exact absurd rfl hi
  | gbits | gchr | dbits | dchr | finish => exact exec_of_ignored (by rw [hp]; rfl)

theorem execWord_of_phase_error {w : Word} (hp : s.phase = .error) (he : w ≠ encode .bege) (hd : w ≠ encode .begd) :
    execWord w s = .next s := by
  cases hw : decode w with
  | illegal why => rw [execWord_of_illegal hw, execIllegal_eq, if_pos hp]
  | legal i =>
    rw [execWord_of_legal hw]
    refine exec_of_phase_error hp fun hi => ?_
    have hwi : w = encode i := eq_encode_of_decode_opening hw hi
    cases i with
    | bege => exact he hwi
    | begd => exact hd hwi
    | nop | gbits | gchr | dbits | dchr | finish => cases hi

theorem step_reset {rest : List HostAction} (hv : s.config.valid = true) (hh : s.host = .reset :: rest) :
    step s = .next (applyReset { s with host := rest }) := by
  rw [← dropAction_eq hh]
  exact step_anyTime hv (by rw [anyTimeAction, hh])

end

/-- Settles O30: only the words of BEGE and BEGD do anything in PHASE ERROR. -/
theorem errorPhaseIgnoresOtherWords : Obligations.ErrorPhaseIgnoresOtherWords := by
  unfold Obligations.ErrorPhaseIgnoresOtherWords
  intro w s hp
  split_ifs with he hd
  · exact (execWord_of_legal (he ▸ decode_encode (i := .bege) rfl)).trans (exec_bege s)
  · exact (execWord_of_legal (hd ▸ decode_encode (i := .begd) rfl)).trans (exec_begd s)
  · exact execWord_of_phase_error hp he hd

/-- Settles O31: BEGE and BEGD open an operation, and a reset action applies the reset. -/
theorem openingAndResetLeaveError : Obligations.OpeningAndResetLeaveError := by
  unfold Obligations.OpeningAndResetLeaveError
  refine fun s _ => ⟨fun i hi => ?_, fun rest hv hh => ⟨_, step_reset hv hh, rfl, rfl⟩⟩
  have hc : classOf i = .opening := by rcases hi with rfl | rfl <;> rfl
  obtain ⟨m, ho⟩ := exec_opening hc
  exact ⟨_, ho, rfl, rfl, rfl, rfl, rfl, rfl, rfl, rfl, rfl⟩

/-! ### The errors each command can raise (R201) -/

section
variable {s : State} {p q : ErrorCode → Prop} {x : Effect}

/-- An effect whose error, if it raises one, is among those of `p`, and that does not write PHASE ERROR itself. -/
def RaisesOnly (p : ErrorCode → Prop) : Effect → Prop
  | .ok t => t.phase ≠ .error
  | .error e => p e

theorem RaisesOnly.mono (h : RaisesOnly p x) (hpq : ∀ e, p e → q e) : RaisesOnly q x := by
  cases x with
  | ok t => exact h
  | error e => exact hpq e h

/-- The frame of a command adds IllegalCommand to the errors of its body (R203). -/
theorem ecode_of_perform {c : CommandClass} {body : State → Effect} {t : State} (hb : RaisesOnly p (body s))
    (hs : s.phase ≠ .error) (h : perform c body s = .next t) (ht : t.phase = .error) :
    t.ecode = .illegalCommand ∨ p t.ecode := by
  rcases perform_cases h with ⟨-, rfl⟩ | ⟨-, rfl⟩ | ⟨e, -, he, rfl⟩ | ⟨-, he⟩
  · exact absurd ht hs
  · exact .inl rfl
  · rw [he] at hb
    exact .inr hb
  · rw [he] at hb
    exact absurd ht hb

theorem raisesOnly_loadGenerator (bs : Bits) (hs : s.phase ≠ .error) :
    RaisesOnly (· = .capacityExceeded) (loadGenerator bs s) := by
  rcases loadGenerator_cases bs s with ⟨-, h⟩ | ⟨-, h⟩ <;> rw [h]
  · exact rfl
  · exact hs

theorem raisesOnly_gchrEffect (c : BitVec 8) (hs : s.phase ≠ .error) :
    RaisesOnly (fun e => e = .invalidAlphabet ∨ e = .capacityExceeded) (gchrEffect c s) := by
  unfold gchrEffect
  split
  · exact .inl rfl
  · exact (raisesOnly_loadGenerator _ hs).mono fun _ => .inr

theorem raisesOnly_feedData (bs : Bits) (s : State) :
    RaisesOnly (fun e => s.phase = .gen ∧ e = .invalidGenerator) (feedData bs s) := by
  rcases feedData_cases bs s with ⟨hp, -, h⟩ | ⟨-, h⟩ <;> rw [h]
  · exact ⟨hp, rfl⟩
  · simp [RaisesOnly]

theorem raisesOnly_dchrEffect (c : BitVec 8) (s : State) :
    RaisesOnly (fun e => e = .invalidAlphabet ∨ (s.phase = .gen ∧ e = .invalidGenerator)) (dchrEffect c s) := by
  unfold dchrEffect
  split
  · exact .inl rfl
  · exact (raisesOnly_feedData _ s).mono fun _ => .inr

theorem raisesOnly_finishEffect (s : State) :
    RaisesOnly (fun e => (s.phase = .gen ∧ e = .invalidGenerator) ∨ (s.mode = .det ∧ e = .inputTooShort))
      (finishEffect s) := by
  rcases startData_cases s with ⟨hp, -, h⟩ | ⟨-, h⟩ <;> rw [finishEffect, h]
  · exact .inl ⟨hp, rfl⟩
  · dsimp only
    split
    case h_1 => exact nofun
    case h_2 hm =>
      rcases detFinish_cases (enterData s) with ⟨-, h⟩ | ⟨-, h⟩ <;> rw [h]
      · exact .inr ⟨hm, rfl⟩
      · exact nofun

end

/-- Settles O32: a command ends in PHASE ERROR by the IllegalCommand of its frame or by an error of its body; NOP, BEGE
and BEGD are legal in every phase and their bodies raise none. -/
theorem errorsEachCommandCanRaise : Obligations.ErrorsEachCommandCanRaise := by
  unfold Obligations.ErrorsEachCommandCanRaise
  intro i s t hs h ht
  cases i with
  | nop =>
    cases (exec_nop s).symm.trans h
    exact hs ht
  | bege =>
    cases (exec_bege s).symm.trans h
    cases ht
  | begd =>
    cases (exec_begd s).symm.trans h
    cases ht
  | gbits k v => exact ecode_of_perform (raisesOnly_loadGenerator _ hs) hs h ht
  | gchr c => exact ecode_of_perform (raisesOnly_gchrEffect c hs) hs h ht
  | dbits k v => exact ecode_of_perform (raisesOnly_feedData _ s) hs h ht
  | dchr c => exact ecode_of_perform (raisesOnly_dchrEffect c s) hs h ht
  | finish => exact ecode_of_perform (raisesOnly_finishEffect s) hs h ht

/-! ### The order of errors (R202) -/

section
variable {s : State}

theorem perform_of_body_error {c : CommandClass} {body : State → Effect} {e : ErrorCode}
    (hl : legality c s.phase = .yes) (hb : body s = .error e) : perform c body s = .next (errorEntry e s) := by
  rw [perform_yes body hl, hb]
  rfl

theorem symbolBit_of_ne {c : BitVec 8} (h0 : c ≠ 0x30) (h1 : c ≠ 0x31) : symbolBit c = none :=
  (if_neg h0).trans (if_neg h1)

/-- A bad symbol is found before the capacity is looked at. -/
theorem exec_gchr_of_bad_symbol {c : BitVec 8} (hc : symbolBit c = none) (hp : s.phase = .gen) :
    exec (.gchr c) s = .next (errorEntry .invalidAlphabet s) :=
  perform_of_body_error (by rw [hp]; rfl) (by rw [gchrEffect, hc])

/-- A bad symbol is found before the generator is looked at. -/
theorem exec_dchr_of_bad_symbol {c : BitVec 8} (hc : symbolBit c = none) (hp : s.phase = .gen ∨ s.phase = .data) :
    exec (.dchr c) s = .next (errorEntry .invalidAlphabet s) :=
  perform_of_body_error (by rcases hp with hp | hp <;> rw [hp] <;> rfl) (by rw [dchrEffect, hc])

theorem exec_generator_of_overflow {i : Instr} {bs : Bits} (hb : generatorBits i = some bs) (hp : s.phase = .gen)
    (hl : s.glen.toNat + bs.length > s.config.nmax) : exec i s = .next (errorEntry .capacityExceeded s) :=
  (exec_of_generatorBits hb).trans (perform_of_body_error (by rw [hp]; rfl) (if_pos hl))

end

/-- Settles O33: one lemma for each error, in the order of R202; in PHASE ERROR a word opens an operation or leaves the
state as it is. -/
theorem errorPriority : Obligations.ErrorPriority := by
  unfold Obligations.ErrorPriority
  refine ⟨fun s hs => ⟨fun w why h => ?_, fun i => exec_of_no, fun c h0 h1 => ?_, fun i hp hok hi => ?_,
    fun i bs hp _ hb => exec_generator_of_overflow hb hp, exec_finish_det_short⟩, fun w s t hp h ht => ?_⟩
  · rw [execWord_of_illegal h, execIllegal_eq, if_neg hs]
  · have hc := symbolBit_of_ne h0 h1
    exact ⟨exec_gchr_of_bad_symbol hc, exec_dchr_of_bad_symbol hc⟩
  · rw [firstDataCommandValidatesGenerator.1 i s hp hi, if_pos (generatorOk_eq_false_iff.mp hok)]
  · rw [errorPhaseIgnoresOtherWords w s hp] at h
    split_ifs at h <;> cases h
    · cases ht
    · cases ht
    · rfl

end Sys2Proof.Machine
end

section
/-! PROOFS. Reset and hazards (70_reset_and_hazards.md R230 to R232, R241): a next state for every word and every step,
reset from any state, the commands after reset, and reads while BUSY = 1. -/

namespace Sys2Proof.Machine

/-! ### Reads while BUSY = 1 (R241) -/

section
variable {s : State} {w : Word}

/-- BUSY is bit 7 of STATUS, and no other field depends on the command in progress (R33). -/
theorem statusWord_of_busy (hi : s.inProgress = some w) : statusWord s = statusWord (retire s) ||| 0x80 := by
  have hb : flagWord s.busy <<< 7 = 0x80 := by rw [State.busy, hi]; rfl
  have hr : flagWord (retire s).busy <<< 7 = 0 := rfl
  have hv : (retire s).valid = s.valid := rfl
  have he : (retire s).err = s.err := rfl
  simp only [statusWord, hb, hr, hv, he, retire_phase, retire_mode, retire_hasErr, retire_ecode]
  ac_rfl

theorem readIsOpen_of_busy (a : BitVec 4) (hi : s.inProgress = some w) : readIsOpen s a = (a != 0) := by
  rw [readIsOpen, State.busy, hi]
  rfl

/-- A free value is drawn for every word but STATUS (R241). -/
theorem serveRead_of_busy (a : BitVec 4) (hi : s.inProgress = some w) :
    serveRead a s = { s with rdTrace := s.rdTrace ++ [{ addr := a, data := portWord s a }],
                             draws := if a = 0 then s.draws else s.draws + 1 } := by
  simp [serveRead, readIsOpen_of_busy a hi]

/-- STATUS is never a free value (R241). -/
theorem portWord_zero (s : State) : portWord s 0 = statusWord s := by
  have ho : readIsOpen s 0 = false := Bool.and_false _
  rw [portWord, ho]
  rfl

end

/-- Settles O38: the word the port answers; for STATUS it is the read map's, in which the command in progress sets bit 7
alone. -/
theorem readWhileBusy : Obligations.ReadWhileBusy := by
  unfold Obligations.ReadWhileBusy
  intro s a w rest hv hi hh
  refine ⟨portWord { s with host := rest } a, ?_, ?_⟩
  · rw [step_read hv hh, serveRead_of_busy (s := { s with host := rest }) a hi]
  · rintro rfl
    exact (portWord_zero _).trans (statusWord_of_busy hi)

/-! ### Reset and the commands after it (R231, R232) -/

/-- Every field of STATUS is 0 after reset (R231). -/
theorem statusWord_applyReset (s : State) : statusWord (applyReset s) = 0 := by
  change statusWord State.reset = 0
  decide

/-- Settles O44: the step applies the reset to the state with the reset action taken off the script, and reset keeps the
configuration, so PARAM still reads NMAX. -/
theorem resetFromAnyState : Obligations.ResetFromAnyState := by
  unfold Obligations.ResetFromAnyState
  intro s rest hv hh
  refine ⟨step_reset hv hh, fun t ht => ?_⟩
  cases (step_reset hv hh).symm.trans ht
  exact ⟨statusWord_applyReset _, readMap_param _ hv⟩

/-- Opening an operation clears the registers that reset clears (R232). -/
theorem openOperation_eq_applyReset (m : Mode) (s : State) :
    openOperation m s = { applyReset s with phase := .gen, mode := m, inProgress := s.inProgress } := rfl

/-- Settles O45: the column IDLE of the legality table, and what opening an operation clears. -/
theorem commandsAfterReset : Obligations.CommandsAfterReset := by
  unfold Obligations.CommandsAfterReset
  refine fun s => ⟨fun hp i hi => exec_of_no ?_, ?_, ?_⟩
  · rcases hi with hi | hi | hi <;> rw [hi, hp] <;> rfl
  · rw [exec_bege, openOperation_eq_applyReset]
  · rw [exec_begd, openOperation_eq_applyReset]

/-! ### Every step gives a next state (R230) -/

/-- The step of a legal configuration answers a next state: a host action is served, or the command in progress ends or
stalls, or the boundary step is taken. -/
theorem step_next {s : State} (hv : s.config.valid = true) : ∃ t, step s = .next t := by
  cases ha : anyTimeAction s with
  | some t => exact ⟨t, step_anyTime hv ha⟩
  | none =>
    cases hi : s.inProgress with
    | none => exact ⟨_, step_boundary hv ha hi⟩
    | some w =>
      obtain ⟨u, hu⟩ := execWord_next w (retire s)
      exact ⟨_, step_complete hv ha hi hu⟩

/-- Settles O46: every word is performed in a frame that answers a next state, and so is every step. -/
theorem everyCommandGivesANextState : Obligations.EveryCommandGivesANextState := by
  unfold Obligations.EveryCommandGivesANextState
  exact ⟨execWord_next, fun _ => step_next⟩

end Sys2Proof.Machine
end

section
/-! PROOFS. The writers of the registers (10_state.md R20 to R32), the configuration (00_scope.md R6, 60_exceptions.md
R207), and the invariant at reset. -/

namespace Sys2Proof.Machine

/-! ### The writers of the registers -/

section
variable {i : Instr} {s t : State} {bs : Bits}

theorem classOf_of_generatorBits (hb : generatorBits i = some bs) : classOf i = .generator := by
  cases i with
  | gbits | gchr => rfl
  | nop | bege | begd | dbits | dchr | finish => cases hb

theorem classOf_of_dataBits (hb : dataBits i = some bs) : classOf i = .data := by
  cases i with
  | dbits | dchr => rfl
  | nop | bege | begd | gbits | gchr | finish => cases hb

end

/-- Settles O50: in every case of a command other than opening an operation, the registers that differ are among those
its row of the legality table writes. -/
theorem registerWriters : Obligations.RegisterWriters := by
  unfold Obligations.RegisterWriters
  refine fun i s t h => ⟨exec_sameOutside h, fun hi => ?_⟩
  rcases exec_cases h with ⟨-, rfl⟩ | ⟨rfl, -⟩ | ⟨rfl, -⟩ | ⟨-, -, e, hs, -, -, rfl⟩ | ⟨bs, hb, hp, rfl⟩ |
    ⟨bs, hb, -, rfl⟩ | ⟨rfl, hm, -, rfl⟩ | ⟨rfl, hm, -, -, rfl⟩
  case inr.inl => exact absurd rfl hi
  case inr.inr.inl => exact absurd rfl hi
  · simp
  · simp [hs]
  · simp [classOf_of_generatorBits hb, hp]
  · cases hm : s.mode <;> simp [classOf_of_dataBits hb, feedBits_eq, hm]
  · simp [classOf, hm, encFinish]
  · simp [classOf, hm]

/-! ### The configuration -/

/-- Settles O53: reset and the host's actions keep the configuration, and no command touches it. -/
theorem configurationNeverChanges : Obligations.ConfigurationNeverChanges := by
  unfold Obligations.ConfigurationNeverChanges
  intro s t h
  obtain ⟨-, ⟨a, rest, -, rfl⟩ | ⟨rest, -, rfl⟩ | ⟨l, rest, -, rfl⟩ | ⟨-, w, u, -, hu, rfl⟩ | ⟨-, w, rest, -, rfl⟩ |
    ⟨-, rest, -, rfl⟩ | ⟨-, -, rfl⟩⟩ := step_cases h
  case inr.inr.inr.inl =>
    obtain ⟨-, hconfig, -⟩ := execWord_sameOutside hu
    split
    · rfl
    · exact hconfig
  all_goals rfl

/-- A configuration that is not legal is refused (R207 (a)). -/
theorem step_of_not_valid {s : State} (hv : ¬ s.config.valid = true) : step s = .refused .badConfig := if_neg hv

/-- Settles O47: a legal configuration answers a next state, any other is refused. -/
theorem badConfigurationIsRefused : Obligations.BadConfigurationIsRefused := by
  unfold Obligations.BadConfigurationIsRefused
  intro s
  have hbad : ¬ s.config.valid = true ↔ s.config.nmax < 2 ∨ 64 < s.config.nmax := by
    rw [config_valid_iff]
    omega
  refine Iff.trans ⟨fun hr hv => ?_, step_of_not_valid⟩ hbad
  obtain ⟨t, ht⟩ := step_next hv
  cases hr.symm.trans ht

/-- Settles O52: `inv_resetOf`, which the invariant's own proof uses for the reset action. -/
theorem invariantHoldsAtReset : Obligations.InvariantHoldsAtReset := by
  unfold Obligations.InvariantHoldsAtReset
  exact fun _ => inv_resetOf

end Sys2Proof.Machine
end

section
/-! PROOFS. The command cycle (41_control_and_generator.md R127, 70_reset_and_hazards.md R230, R233): the step that runs
an accepted command, and a word written and waited for. -/

namespace Sys2Proof.Machine

section
variable {s t : State} {w : Word}

theorem stalled_iff : stalled s t = true ↔ s.cwReady = false ∧ s.cout.length < t.cout.length := by simp [stalled]

/-- The host's next action is one that waits for the command port, or there is none (R245). -/
theorem anyTimeAction_of_waiting
    (h : s.host = [] ∨ s.host.head? = some .await ∨ ∃ x, s.host.head? = some (.write x)) :
    anyTimeAction s = none := by
  rcases h with hh | hh | ⟨x, hh⟩
  · exact anyTimeAction_nil hh
  · obtain ⟨rest, hr⟩ := List.head?_eq_some_iff.1 hh
    exact anyTimeAction_await hr
  · obtain ⟨rest, hr⟩ := List.head?_eq_some_iff.1 hh
    exact anyTimeAction_write hr

theorem retire_acceptWord (hi : s.inProgress = none) : retire (acceptWord w s) = s := by
  rw [retire, acceptWord, ← hi]

/-- The step after an acceptance, with the host waiting and the output taken, executes the word from the state before
the acceptance (R51). -/
theorem step_acceptWord {rest : List HostAction} (hv : s.config.valid = true) (hi : s.inProgress = none)
    (hc : s.cwReady = true) (hh : s.host = .await :: rest) (h : execWord w s = .next t) :
    step (acceptWord w s) = .next t := by
  have hready : stalled (acceptWord w s) t = false := stalled_of_ready hc
  have hwait : anyTimeAction (acceptWord w s) = none := anyTimeAction_await hh
  rw [step_complete (s := acceptWord w s) hv hwait rfl (by rwa [retire_acceptWord hi]), hready]
  rfl

end

/-- Settles O41: the step completes the command in progress, and with cw_ready = 1 nothing stalls it. -/
theorem stepRunsAcceptedCommand : Obligations.StepRunsAcceptedCommand := by
  unfold Obligations.StepRunsAcceptedCommand
  intro s w i hv hi hd hh
  have hrun : ∀ t, exec i (retire s) = .next t → step s = .next (if stalled s t then s else t) := fun t ht =>
    step_complete hv (anyTimeAction_of_waiting hh) hi ((execWord_of_legal hd).trans ht)
  refine ⟨fun hc => ?_, fun t ht => ?_⟩
  · obtain ⟨t, ht⟩ := exec_next i (retire s)
    rw [hrun t ht, stalled_of_ready hc]
    exact ht.symm
  · rw [hrun t ht]
    simp only [stalled_iff]

/-- Settles O42: the first step accepts the word, the second executes it from the state before the acceptance, and the
third ends the wait, since no command touches the host's script, the pin or the command port. -/
theorem writtenCommandCompletes : Obligations.WrittenCommandCompletes := by
  unfold Obligations.WrittenCommandCompletes
  intro s w rest hv hi hc hh
  obtain ⟨t, ht⟩ := execWord_next w { s with host := .await :: rest }
  obtain ⟨htin, htconfig, hthost, -, -, -⟩ := execWord_sameOutside ht
  have haccept : step s = .next (acceptWord w { s with host := .await :: rest }) := step_write hv hi hh
  have hexecute : step (acceptWord w { s with host := .await :: rest }) = .next t :=
    step_acceptWord hv hi hc rfl ht
  have hwait : step t = .next { t with host := rest } := step_await (htconfig ▸ hv) (htin.trans hi) hthost
  refine ⟨t, ht, ?_⟩
  simp only [Host.Core.run, core, haccept, hexecute, hwait]

end Sys2Proof.Machine
end

section
/-! PROOFS. The words the spec writes out (30_encoding.md R71, R72, 95_test_vectors.md), and the assembler accepts only
commands that have an encoding (30_encoding.md R80, R81). -/

namespace Sys2Proof.Machine

/-- Settles O4: `decode` computes on each of the ten words. -/
theorem specWordsDecode : Obligations.SpecWordsDecode := by
  unfold Obligations.SpecWordsDecode
  decide

/-! ### The assembler -/

/-- An answer of the assembler that, if it is a list of commands, is one of well-formed commands. -/
def AcceptsOnlyWellFormed (x : Except AsmError (List Instr)) : Prop :=
  ∀ cs, x = .ok cs → cs.all Instr.wf = true

section
variable {x : Except AsmError (List Instr)} {is : List Instr}

theorem acceptsOnlyWellFormed_ok (h : is.all Instr.wf = true) : AcceptsOnlyWellFormed (.ok is) := by
  rintro _ ⟨⟩
  exact h

theorem acceptsOnlyWellFormed_error (e : AsmError) : AcceptsOnlyWellFormed (.error e) := nofun

end

/-- A count outside 1 to 16 or a value of 2^k or more is refused (R80). -/
theorem packedCommand_eq_error (mk : Nat → BitVec 16 → Instr) {k v : Nat} (h : k < 1 ∨ 16 < k ∨ 2 ^ k ≤ v) :
    packedCommand mk k v = .error .noEncoding := if_neg (by omega)

theorem packedCommand_wf {mk : Nat → BitVec 16 → Instr} (hw : ∀ k v, (mk k v).wf = packedOk k v) (k v : Nat) :
    AcceptsOnlyWellFormed (packedCommand mk k v) := by
  by_cases h : 1 ≤ k ∧ k ≤ 16 ∧ v < 2 ^ k
  · obtain ⟨hk, hk', hv⟩ := h
    rw [packedCommand_eq_ok mk ⟨hk, hk', hv⟩]
    exact acceptsOnlyWellFormed_ok (by simp [hw, packedOk_ofNat hk hk' hv])
  · rw [packedCommand, if_neg h]
    exact acceptsOnlyWellFormed_error _

section
variable {mk : BitVec 8 → Instr}

theorem symbolCommand_wf (hw : ∀ c, (mk c).wf = true) (n : Nat) : AcceptsOnlyWellFormed (symbolCommand mk n) := by
  unfold symbolCommand
  split
  · exact acceptsOnlyWellFormed_ok (by simp [hw])
  · exact acceptsOnlyWellFormed_error _

theorem symbolStream_wf (hw : ∀ c, (mk c).wf = true) (cs : List Char) :
    AcceptsOnlyWellFormed (symbolStream mk cs) := by
  induction cs with
  | nil => exact acceptsOnlyWellFormed_ok rfl
  | cons c cs ih =>
    have hc := symbolCommand_wf hw c.toNat
    rw [symbolStream]
    split
    · next i is hi his =>
      have happ : (i ++ is).all Instr.wf = true := by simp only [List.all_append, hc i hi, ih is his, Bool.and_self]
      exact acceptsOnlyWellFormed_ok happ
    · exact acceptsOnlyWellFormed_error _
    · exact acceptsOnlyWellFormed_error _

end

theorem oneString_wf {f : Bits → List Instr} (hf : ∀ a, (f a).all Instr.wf = true) (s : List Char) :
    AcceptsOnlyWellFormed (oneString f s) := by
  unfold oneString
  split
  · exact acceptsOnlyWellFormed_ok (hf _)
  · exact acceptsOnlyWellFormed_error _

theorem twoStrings_wf {f : Bits → Bits → List Instr} (hf : ∀ a b, (f a b).all Instr.wf = true) (s t : List Char) :
    AcceptsOnlyWellFormed (twoStrings f s t) := by
  unfold twoStrings
  split
  · exact acceptsOnlyWellFormed_ok (hf _ _)
  · exact acceptsOnlyWellFormed_error _

theorem asmEncode_wf (g m : Bits) : (asmEncode g m).all Instr.wf = true := by
  simp [asmEncode, (asmGen_carries g).1, (asmData_carries m).1, Instr.wf]

theorem asmDetect_wf (g c : Bits) : (asmDetect g c).all Instr.wf = true := by
  simp [asmDetect, (asmGen_carries g).1, (asmData_carries c).1, Instr.wf]

/-- Each operand form accepts only well-formed commands if what it builds them with does, and so each mnemonic. -/
theorem assembleForm_wf (m : List Char) (operands : List Token) : AcceptsOnlyWellFormed (assembleForm m operands) := by
  unfold assembleForm
  extract_lets packed symbol bare text texts
  have hpacked : ∀ mk, (∀ k v, (mk k v).wf = packedOk k v) → AcceptsOnlyWellFormed (packed mk) := by
    intro mk hw
    unfold packed
    repeat' split
    · exact packedCommand_wf hw _ _
    all_goals exact acceptsOnlyWellFormed_error _
  have hsymbol : ∀ mk, (∀ c, (mk c).wf = true) → AcceptsOnlyWellFormed (symbol mk) := by
    intro mk hw
    unfold symbol
    repeat' split
    · exact symbolCommand_wf hw _
    · exact symbolCommand_wf hw _
    all_goals exact acceptsOnlyWellFormed_error _
  have hbare : ∀ i : Instr, i.wf = true → AcceptsOnlyWellFormed (bare i) := by
    intro i hw
    unfold bare
    split
    · exact acceptsOnlyWellFormed_ok (by simp [hw])
    · exact acceptsOnlyWellFormed_error _
  have htext : ∀ f, (∀ s, AcceptsOnlyWellFormed (f s)) → AcceptsOnlyWellFormed (text f) := by
    intro f hf
    unfold text
    split
    · exact hf _
    · exact acceptsOnlyWellFormed_error _
  have htexts : ∀ f, (∀ s t, AcceptsOnlyWellFormed (f s t)) → AcceptsOnlyWellFormed (texts f) := by
    intro f hf
    unfold texts
    split
    · exact hf _ _
    · exact acceptsOnlyWellFormed_error _
  clear_value packed symbol bare text texts
  split
  · exact hbare .nop rfl
  · exact hbare .bege rfl
  · exact hbare .begd rfl
  · exact hpacked .gbits fun _ _ => rfl
  · exact hsymbol .gchr fun _ => rfl
  · exact hpacked .dbits fun _ _ => rfl
  · exact hsymbol .dchr fun _ => rfl
  · exact hbare .finish rfl
  · exact htext _ (oneString_wf fun a => (asmGen_carries a).1)
  · exact htext _ (oneString_wf fun a => (asmData_carries a).1)
  · exact htext _ (symbolStream_wf fun _ => rfl)
  · exact htext _ (symbolStream_wf fun _ => rfl)
  · repeat' split
    · exact packedCommand_wf (fun _ _ => rfl) _ _
    all_goals exact acceptsOnlyWellFormed_error _
  · exact htexts _ (twoStrings_wf asmEncode_wf)
  · exact htexts _ (twoStrings_wf asmDetect_wf)
  · exact acceptsOnlyWellFormed_error _

theorem assembleTokens_wf (ts : List Token) : AcceptsOnlyWellFormed (assembleTokens ts) := by
  unfold assembleTokens
  split
  · exact acceptsOnlyWellFormed_ok rfl
  · exact assembleForm_wf _ _
  · exact acceptsOnlyWellFormed_error _

theorem assembleLine_wf (line : List Char) : AcceptsOnlyWellFormed (assembleLine line) := by
  unfold assembleLine
  split
  · exact assembleTokens_wf _
  · exact acceptsOnlyWellFormed_error _

/-- Settles O56: every form of a line is built with `packedCommand`, `symbolCommand`, the packed streams and the
commands without operands. -/
theorem assemblerAcceptsOnlyEncodable : Obligations.AssemblerAcceptsOnlyEncodable := by
  unfold Obligations.AssemblerAcceptsOnlyEncodable
  exact ⟨assembleLine_wf, fun _ _ h => ⟨packedCommand_eq_error .gbits h, packedCommand_eq_error .dbits h⟩⟩

end Sys2Proof.Machine
end
